-- ==== Sys2Proof/Word.lean ====
section
/-! DEFINITION. The one unit of data of the machine. A word, the content of a memory cell, of `ip` and
`rb`, and of a queue or log entry, is a whole signed integer (00_scope R4, 20_memory R55): there are no
bytes, no bit fields and no unsigned reading. It is written `Int` everywhere, not under a name of its
own, so that the arithmetic tactics read it. The bound that the parameter WORD_BITS may put on a word is
checked where values are computed (Machine/Ops.lean). -/

namespace Sys2Proof

/-- The identity of an instance, a plain label used only to aim a pipe (60_exceptions R226). -/
abbrev InstanceId := Nat

end Sys2Proof
end

