-- ==== Sys2Proof/Config.lean ====
section
/-! DEFINITION. The parameters a model of this core takes (00_scope R5 to R7). They are configuration,
not state (10_state R35). Every statement about the machine holds for every value of them unless it
says otherwise. Which values of them are permitted is `Config.valid` in Machine/Ops.lean. -/

namespace Sys2Proof

/-- EXCESS_MODE_DIGITS (R7): what the decoder does with non-zero digits above the last parameter's
mode digit. -/
inductive ExcessDigits where
  | fault
  | ignore
  deriving DecidableEq, Repr

/-- The parameters. `none` is the spec's `unbounded`. -/
structure Config where
  /-- WORD_BITS (R5). -/
  wordBits : Option Nat
  /-- MEM_LIMIT (R6). -/
  memLimit : Option Nat
  /-- EXCESS_MODE_DIGITS (R7). -/
  excess : ExcessDigits
  deriving DecidableEq, Repr

/-- The spec's defaults: unbounded words, unbounded memory, excess digits fault. -/
def Config.standard : Config := { wordBits := none, memLimit := none, excess := .fault }

end Sys2Proof
end

