-- ==== Sys2Proof/Syntax.lean ====
section
/-! DEFINITION. What an instruction word can say: the addressing modes, the ten operation kinds, the
instructions (one constructor per row of spec/opcode_table.json), and the names of the faults. An
instruction holds what the decoder reads from the instruction word alone (30_encoding R86): its kind
and its mode digits. The parameter words are read from memory when the instruction executes (R80,
R81), since a fault on one of them depends on what came before it (60_exceptions R205). -/

namespace Sys2Proof

/-- The operand addressing modes (00_scope R2, 30_encoding R75). -/
inductive Mode where
  | position
  | immediate
  | relative
  deriving DecidableEq, Repr

/-- The ten operation kinds (R73). -/
inductive Kind where
  | add | mul | inp | out | jt | jf | lt | eq | arb | hlt
  deriving DecidableEq, Repr

/-- The instructions. `m1`, `m2`, `m3` are the modes of the parameters P1, P2, P3 (R71). A mode of
an OUTPUT parameter may be written `immediate` here; `Instr.wellFormed` refuses it, as the decoder
does (R77). -/
inductive Instr where
  /-- Add, opcode 1 (R100). -/
  | add (m1 m2 m3 : Mode)
  /-- Multiply, opcode 2 (R101). -/
  | mul (m1 m2 m3 : Mode)
  /-- Input, opcode 3 (R120). -/
  | inp (m1 : Mode)
  /-- Output, opcode 4 (R121). -/
  | out (m1 : Mode)
  /-- JumpIfTrue, opcode 5 (R140). -/
  | jt (m1 m2 : Mode)
  /-- JumpIfFalse, opcode 6 (R141). -/
  | jf (m1 m2 : Mode)
  /-- LessThan, opcode 7 (R160). -/
  | lt (m1 m2 m3 : Mode)
  /-- Equals, opcode 8 (R161). -/
  | eq (m1 m2 m3 : Mode)
  /-- AdjustBase, opcode 9 (R180). -/
  | arb (m1 : Mode)
  /-- Halt, opcode 99 (R181). -/
  | hlt
  deriving DecidableEq, Repr

/-- The fault causes (60_exceptions R200). -/
inductive Cause where
  | invalidOpcode
  | negativeAddress
  | invalidOutputMode
  | invalidMode
  | wordOverflow
  | addressLimit
  deriving DecidableEq, Repr

/-- What a check that fails raises: the cause, and the `info` of R200 where the cause records one. -/
structure Trap where
  cause : Cause
  info : Option Int
  deriving DecidableEq, Repr

end Sys2Proof
end

