-- ==== Sys2Proof/WellFormed.lean ====
section
/-! DEFINITION. Which instructions the encoding admits: an output parameter's mode is position or
relative, never immediate (30_encoding R77). Nothing else about an instruction can be ill-formed,
since every mode of an input parameter is legal. -/

namespace Sys2Proof

/-- The modes an output parameter may have (R77). -/
def Mode.isOutputMode : Mode → Bool
  | .position => true
  | .immediate => false
  | .relative => true

/-- An instruction is well-formed when its output parameter, if it has one, is not immediate. -/
def Instr.wellFormed : Instr → Bool
  | .add _ _ m3 => m3.isOutputMode
  | .mul _ _ m3 => m3.isOutputMode
  | .inp m1 => m1.isOutputMode
  | .out _ => true
  | .jt _ _ => true
  | .jf _ _ => true
  | .lt _ _ m3 => m3.isOutputMode
  | .eq _ _ m3 => m3.isOutputMode
  | .arb _ => true
  | .hlt => true

end Sys2Proof
end

