-- ==== Sys2Proof/Decode.lean ====
section
/-! DEFINITION. The decoder and, after it, the encoder. The instruction word is split into decimal
digits (30_encoding R71). The opcode numbers stand in ONE table (R73, decision D1), which both
directions read. -/

namespace Sys2Proof

/-- Decimal digit `j` of `w`, counted from 0 at the units digit (00_scope section 5). -/
def digit (w j : Nat) : Nat := w / 10 ^ j % 10

/-- The opcode map (R73). Opcodes 3, 5 and 7 rest on the order of the source's list (D1). -/
def opcodeTable : List (Nat × Kind) :=
  [(1, .add), (2, .mul), (3, .inp), (4, .out), (5, .jt), (6, .jf), (7, .lt), (8, .eq), (9, .arb),
   (99, .hlt)]

/-- The kind an opcode selects, if it selects one (R73, R74). -/
def kindOf (op : Nat) : Option Kind :=
  (opcodeTable.find? fun row => row.1 == op).map Prod.snd

/-- The opcode of a kind (R73). -/
def Kind.opcode (k : Kind) : Nat :=
  ((opcodeTable.find? fun row => row.2 == k).map Prod.fst).getD 0

/-- How many input parameters a kind has (R73). -/
def Kind.inputs : Kind → Nat
  | .add => 2
  | .mul => 2
  | .inp => 0
  | .out => 1
  | .jt => 2
  | .jf => 2
  | .lt => 2
  | .eq => 2
  | .arb => 1
  | .hlt => 0

/-- How many output parameters a kind has (R73). -/
def Kind.outputs : Kind → Nat
  | .add => 1
  | .mul => 1
  | .inp => 1
  | .out => 0
  | .jt => 0
  | .jf => 0
  | .lt => 1
  | .eq => 1
  | .arb => 0
  | .hlt => 0

/-- The number of parameter words, inputs first and the output last (R70). -/
def Kind.arity (k : Kind) : Nat := k.inputs + k.outputs

/-- The length of an instruction in words, decided by its opcode alone (R84). -/
def Kind.length (k : Kind) : Nat := 1 + k.arity

/-- The kind of an instruction. -/
def Instr.kind : Instr → Kind
  | .add _ _ _ => .add
  | .mul _ _ _ => .mul
  | .inp _ => .inp
  | .out _ => .out
  | .jt _ _ => .jt
  | .jf _ _ => .jf
  | .lt _ _ _ => .lt
  | .eq _ _ _ => .eq
  | .arb _ => .arb
  | .hlt => .hlt

/-- The modes of an instruction's parameters, P1 first. -/
def Instr.modes : Instr → List Mode
  | .add m1 m2 m3 => [m1, m2, m3]
  | .mul m1 m2 m3 => [m1, m2, m3]
  | .inp m1 => [m1]
  | .out m1 => [m1]
  | .jt m1 m2 => [m1, m2]
  | .jf m1 m2 => [m1, m2]
  | .lt m1 m2 m3 => [m1, m2, m3]
  | .eq m1 m2 m3 => [m1, m2, m3]
  | .arb m1 => [m1]
  | .hlt => []

/-- The mode a legal mode digit names (R75); 3 to 9 name none. -/
def modeOfDigit : Nat → Option Mode
  | 0 => some .position
  | 1 => some .immediate
  | 2 => some .relative
  | _ => none

/-- The digit of a mode (R75). -/
def Mode.digit : Mode → Nat
  | .position => 0
  | .immediate => 1
  | .relative => 2

/-- The mode of parameter `j` of the instruction word `w` (R71), if its digit is legal. -/
def modeOf (w j : Nat) : Option Mode := modeOfDigit (digit w (j + 1))

/-- The digits that a kind uses are all legal (R75). -/
def usedDigitsLegal (w : Nat) (k : Kind) : Bool :=
  (List.range k.arity).all fun j => (modeOf w (j + 1)).isSome

/-- The excess field X: every digit above the last parameter's mode digit (R71, R76). -/
def excessField (w : Nat) (k : Kind) : Nat := w / 10 ^ (k.arity + 2)

/-- The instruction of a kind whose parameter `j` has the mode `m j`. -/
def instrOf (k : Kind) (m : Nat → Mode) : Instr :=
  match k with
  | .add => .add (m 1) (m 2) (m 3)
  | .mul => .mul (m 1) (m 2) (m 3)
  | .inp => .inp (m 1)
  | .out => .out (m 1)
  | .jt => .jt (m 1) (m 2)
  | .jf => .jf (m 1) (m 2)
  | .lt => .lt (m 1) (m 2) (m 3)
  | .eq => .eq (m 1) (m 2) (m 3)
  | .arb => .arb (m 1)
  | .hlt => .hlt

/-- The decode of a non-negative word whose opcode selects the kind `k`: used mode digits, then
excess digits, then the output mode (R86). The default in `getD` is never taken, because the digits
were found legal. -/
def decodeKind (c : Config) (w : Nat) (k : Kind) : Except Trap Instr :=
  if usedDigitsLegal w k = false then .error ⟨.invalidMode, none⟩
  else if c.excess = .fault ∧ excessField w k ≠ 0 then .error ⟨.invalidMode, none⟩
  else if k.outputs = 1 ∧ modeOf w k.arity = some .immediate then .error ⟨.invalidOutputMode, none⟩
  else .ok (instrOf k fun j => (modeOf w j).getD .position)

/-- `Decode(w)` (R86). It reads the word and the configuration, nothing else. -/
def decode (c : Config) (w : Int) : Except Trap Instr :=
  if w < 0 then .error ⟨.invalidOpcode, none⟩
  else
    match kindOf (w.toNat % 100) with
    | none => .error ⟨.invalidOpcode, some ((w.toNat % 100 : Nat) : Int)⟩
    | some k => decodeKind c w.toNat k

/-- The mode digits of a list of modes as one number, the first parameter's digit lowest (R88). -/
def modesValue : List Mode → Nat
  | [] => 0
  | m :: ms => m.digit + 10 * modesValue ms

/-- The instruction word of an instruction: opcode plus 100 times the mode digits (R88). -/
def encode (i : Instr) : Int := ((i.kind.opcode + 100 * modesValue i.modes : Nat) : Int)

/-- The words of an instruction with the parameter words `ps` (R70, R88). -/
def encodeWords (i : Instr) (ps : List Int) : List Int := encode i :: ps

/-- The instruction that the decoder reads, under the default parameters, from an instruction word of
value `w` (spec/opcode_table.json counts the one word in decimal, and the parameter words have no
part in decoding). -/
def decodeTableWord (_nbits w : Nat) : Option Instr :=
  match decode Config.standard (w : Int) with
  | .ok i => some i
  | .error _ => none

end Sys2Proof
end

