-- ==== Sys2Proof/Machine/State.lean ====
section
/-! DEFINITION. The architectural state (10_state R20), the states of the other instances of the group
(60_exceptions R226, R227), the parameters in force, and the state after reset. Plain data. -/

namespace Sys2Proof.Machine

/-- Memory as the cells that hold something other than 0, by strictly rising address; every address
not listed reads 0 (10_state R30, 20_memory R53). -/
abbrev Memory := List (Nat × Int)

/-- The last-operation status (10_state R27). -/
inductive LastOp where
  /-- before the first step -/
  | none
  /-- the kind that executed; the halted indicator is `executed .hlt` -/
  | executed (k : Kind)
  /-- the step suspended -/
  | suspended
  deriving DecidableEq, Repr

/-- The fault record (60_exceptions R201). `word` is absent when the fetch itself faulted. -/
structure FaultRecord where
  cause : Cause
  ip : Int
  word : Option Int
  info : Option Int
  deriving DecidableEq, Repr

/-- The architectural state of one instance (10_state R20). -/
structure Instance where
  /-- memory (R30) -/
  mem : Memory
  /-- instruction pointer (R22) -/
  ip : Int
  /-- relative base (R24) -/
  rb : Int
  /-- input queue, head first (R31) -/
  inq : List Int
  /-- output log, oldest first (R32) -/
  outlog : List Int
  /-- the halted bit (R26) -/
  halted : Bool
  /-- the last-operation status (R27) -/
  lastop : LastOp
  /-- the pipe target (R28) -/
  pipe : Option InstanceId
  /-- the fault register (R29) -/
  fault : Option FaultRecord
  deriving DecidableEq, Repr

/-- The state of the machine: the instance whose turn it is (the fields of `Instance`), its identity,
every other instance of the group, and the parameters. A step acts on the instance whose turn it is;
the host chooses whose turn comes next (60_exceptions R228; `State.focus` in Machine/HostCalls.lean). -/
structure State extends Instance where
  /-- the identity of the instance whose turn it is (R226) -/
  self : InstanceId
  /-- the other instances, by strictly rising identity (R226, R227) -/
  peers : List (InstanceId × Instance)
  /-- the parameters; nothing writes them (00_scope R5 to R7, 10_state R35) -/
  cfg : Config
  deriving DecidableEq, Repr

/-- Reasons for which the machine would have no next state. There are none: every fault of the spec is
taken, a next state in which the fault register is set (60_exceptions R202), and a step of a faulted
or halted machine is a next state as well (R204, R214). -/
inductive Fault where
  deriving DecidableEq, Repr

/-- Reasons for which the model gives no meaning. -/
inductive Refusal where
  /-- Raised only by an arm of `exec` that has no meaning yet; safe, since the model then stops where
  the machine goes on. No arm is refused now. -/
  | notModelled (mnemonic : String)
  deriving DecidableEq, Repr

/-- The instance right after `construct` with the empty program and no inputs (70_reset R250, R257);
the general form is `construct` in Machine/Construct.lean. -/
def Instance.reset : Instance :=
  { mem := [], ip := 0, rb := 0, inq := [], outlog := [], halted := false, lastop := .none,
    pipe := .none, fault := .none }

/-- The machine right after reset: one instance, of identity 0 (DESIGN CHOICE, log entry 3), and the
default parameters. -/
def State.reset : State :=
  { Instance.reset with self := 0, peers := [], cfg := Config.standard }

end Sys2Proof.Machine
end

