-- ==== Sys2Proof/Machine/Memory.lean ====
section
/-! DEFINITION. Lists of entries sorted by a natural key, and memory as such a list. Memory lists no
cell that holds 0, so a cell written with 0 is the same as a cell never written (20_memory R53). -/

namespace Sys2Proof.Machine

/-- The first entry with key `a`. -/
def findKey {α : Type} : List (Nat × α) → Nat → Option α
  | [], _ => none
  | (k, v) :: rest, a => if k = a then some v else findKey rest a

/-- The list without its entries of key `a`. -/
def dropKey {α : Type} (l : List (Nat × α)) (a : Nat) : List (Nat × α) :=
  l.filter fun e => e.1 != a

/-- Puts an entry before the first one of a greater key. -/
def placeKey {α : Type} : List (Nat × α) → Nat → α → List (Nat × α)
  | [], a, v => [(a, v)]
  | (k, w) :: rest, a, v => if a < k then (a, v) :: (k, w) :: rest else (k, w) :: placeKey rest a v

/-- Makes `v` the one entry of key `a`. -/
def putKey {α : Type} (l : List (Nat × α)) (a : Nat) (v : α) : List (Nat × α) :=
  placeKey (dropKey l a) a v

/-- The keys rise strictly, and the first is at least `lo`. -/
def keysRise {α : Type} : Nat → List (Nat × α) → Bool
  | _, [] => true
  | lo, (k, _) :: rest => decide (lo ≤ k) && keysRise (k + 1) rest

/-- The content of cell `a`; 0 for any address never written (20_memory R51). -/
def Memory.read (m : Memory) (a : Nat) : Int := (findKey m a).getD 0

/-- Writes cell `a` (20_memory R52); writing 0 removes the entry. -/
def Memory.write (m : Memory) (a : Nat) (v : Int) : Memory :=
  if v = 0 then dropKey m a else putKey m a v

/-- The canonical form: addresses strictly rise and no listed cell holds 0. -/
def Memory.wf (m : Memory) : Bool := keysRise 0 m && m.all fun e => e.2 != 0

/-- The cells of a program image from address `a` on (70_reset R250). -/
def Memory.imageFrom : Nat → List Int → Memory
  | _, [] => []
  | a, p :: ps => if p = 0 then imageFrom (a + 1) ps else (a, p) :: imageFrom (a + 1) ps

/-- The memory that holds a program at addresses 0 to L-1 and 0 everywhere else (70_reset R250). -/
def Memory.image (program : List Int) : Memory := Memory.imageFrom 0 program

end Sys2Proof.Machine
end

