-- ==== Sys2Proof/Machine/Ops.lean ====
section
/-! DEFINITION. The checks a step makes (each answers a value or the trap it raises), the changes of
state a step commits, and taking a fault. The checks write nothing and the changes cannot fail, so a
step commits all of its writes or none (30_encoding R87). -/

namespace Sys2Proof.Machine

/-! ### The parameters -/

/-- A value is representable under WORD_BITS (00_scope R5). -/
def fits (c : Config) (v : Int) : Bool :=
  match c.wordBits with
  | none => true
  | some n => decide (-((2 ^ (n - 1) : Nat) : Int) ≤ v) && decide (v ≤ ((2 ^ (n - 1) : Nat) : Int) - 1)

/-- An address is below MEM_LIMIT (00_scope R6). -/
def admits (c : Config) (a : Nat) : Bool :=
  match c.memLimit with
  | none => true
  | some limit => decide (a < limit)

/-- The parameter values the spec permits: n ≥ 64 (R5) and L ≥ 1 (R6). -/
def configValid (c : Config) : Bool :=
  (match c.wordBits with
    | none => true
    | some n => decide (64 ≤ n)) &&
  (match c.memLimit with
    | none => true
    | some limit => decide (1 ≤ limit))

/-! ### Checks -/

/-- `Rep(v)` (00_scope section 5, R5). -/
def rep (c : Config) (v : Int) : Except Trap Int :=
  if fits c v then .ok v else .error ⟨.wordOverflow, some v⟩

/-- The address checks of every access (20_memory R51, R52): below 0, then at or above MEM_LIMIT. -/
def checkAddress (c : Config) (a : Int) : Except Trap Nat :=
  if a < 0 then .error ⟨.negativeAddress, some a⟩
  else if admits c a.toNat then .ok a.toNat
  else .error ⟨.addressLimit, some a⟩

/-- `MemRead(a)` (20_memory R51). -/
def memRead (s : State) (a : Int) : Except Trap Int := do
  let n ← checkAddress s.cfg a
  pure (s.mem.read n)

/-- The instruction word at `ip`, absent when its fetch faults (60_exceptions R201). -/
def fetchedWord (s : State) : Option Int := (memRead s s.ip).toOption

/-! ### Changes of state -/

/-- `mem(d) <- v` for an address already checked (20_memory R52). -/
def State.storeCell (s : State) (d : Nat) (v : Int) : State := { s with mem := s.mem.write d v }

/-- The end of a step that executed an instruction of kind `k`: the new `ip`, and `lastop`
(10_state R22, R27). -/
def State.retire (s : State) (k : Kind) (ip' : Int) : State :=
  { s with ip := ip', lastop := .executed k }

/-- `rb <- v` (44_system R180). -/
def State.setBase (s : State) (v : Int) : State := { s with rb := v }

/-- Removes the head of the input queue (41_io R120). -/
def State.dropInput (s : State) : State := { s with inq := s.inq.tail }

/-- Appends to the output log (41_io R121). -/
def State.logOutput (s : State) (v : Int) : State := { s with outlog := s.outlog ++ [v] }

/-- Appends a value at the tail of an instance's input queue (10_state R31). -/
def Instance.enqueue (m : Instance) (v : Int) : Instance := { m with inq := m.inq ++ [v] }

/-- Appends `v` to the input queue of the instance of identity `t`: this instance itself or a peer,
whatever that one's state (60_exceptions R230, R231). An identity that no instance of the group has
names nothing here (log entry 4). -/
def State.deliver (s : State) (t : InstanceId) (v : Int) : State :=
  if t = s.self then { s with inq := s.inq ++ [v] }
  else { s with peers := s.peers.map fun p => if p.1 = t then (p.1, p.2.enqueue v) else p }

/-- Pipe forwarding of one output value (41_io R124). -/
def State.forward (s : State) (v : Int) : State :=
  match s.pipe with
  | none => s
  | some t => s.deliver t v

/-- Suspension writes `lastop` and nothing else (41_io R122). -/
def State.suspend (s : State) : State := { s with lastop := .suspended }

/-- Halt: `halted` and `lastop`; `ip` is not advanced (44_system R181). -/
def State.halt (s : State) : State := { s with halted := true, lastop := .executed .hlt }

/-! ### Taking a fault

There is no handler, no saved program counter and no mode (60_exceptions R202), and no return from a
fault (R210): only `construct` and `import` replace a faulted state (Machine/HostCalls.lean). -/

/-- The record of a fault raised in state `s` (R201). -/
def faultRecord (s : State) (t : Trap) : FaultRecord :=
  { cause := t.cause, ip := s.ip, word := fetchedWord s, info := t.info }

/-- Fault entry (R202): the fault register is written, and nothing else. -/
def State.takeFault (s : State) (t : Trap) : State := { s with fault := some (faultRecord s t) }

/-- The end of a step: what it commits, or the fault it takes (30_encoding R87). -/
def conclude (s : State) (r : Except Trap State) : Host.Outcome State Fault Refusal :=
  match r with
  | .ok t => .next t
  | .error t => .next (s.takeFault t)

end Sys2Proof.Machine
end

