-- ==== Sys2Proof/Machine/Operands.lean ====
section
/-! DEFINITION. Operand resolution (30_encoding R80 to R83). Parameter words are used whole (R82). -/

namespace Sys2Proof.Machine

/-- The parameter word Pj, read at `ip + j` (R70, R80). -/
def paramWord (s : State) (j : Nat) : Except Trap Int := do
  let a ← rep s.cfg (s.ip + j)
  memRead s a

/-- `ResolveIn(j)`: the value of input operand `j` under its mode (R80). -/
def resolveIn (s : State) (j : Nat) (m : Mode) : Except Trap Int := do
  let p ← paramWord s j
  match m with
  | .position => memRead s p
  | .immediate => pure p
  | .relative => do
    let a ← rep s.cfg (s.rb + p)
    memRead s a

/-- `ResolveOut(n)`: the address of the output operand, the last parameter (R81). Mode 1 on an output
operand is refused (R77); `decode` has already refused it for every instruction it reads. -/
def resolveOut (s : State) (j : Nat) (m : Mode) : Except Trap Nat := do
  let p ← paramWord s j
  match m with
  | .position => checkAddress s.cfg p
  | .immediate => .error ⟨.invalidOutputMode, none⟩
  | .relative => do
    let d ← rep s.cfg (s.rb + p)
    checkAddress s.cfg d

end Sys2Proof.Machine
end

