-- ==== Sys2Proof/Machine/Arithmetic.lean ====
section
/-! DEFINITION. Add and Multiply (40_arithmetic), and the shape of every instruction of format F3, which
the comparisons share: two input operands, one output address, one result. -/

namespace Sys2Proof.Machine

/-- An F3 instruction (30_encoding R87): operands in parameter order, the result (which may be refused
by `Rep`), the new `ip`, then the writes. -/
def storeResult (k : Kind) (f : Int → Int → Except Trap Int) (m1 m2 m3 : Mode) (s : State) :
    Host.Outcome State Fault Refusal :=
  conclude s do
    let a ← resolveIn s 1 m1
    let b ← resolveIn s 2 m2
    let d ← resolveOut s 3 m3
    let r ← f a b
    let ip' ← rep s.cfg (s.ip + 4)
    pure ((s.storeCell d r).retire k ip')

/-- Add (R100): the exact sum, checked by `Rep`. -/
def execAdd (m1 m2 m3 : Mode) (s : State) : Host.Outcome State Fault Refusal :=
  storeResult .add (fun a b => rep s.cfg (a + b)) m1 m2 m3 s

/-- Multiply (R101): the exact product, checked by `Rep`. -/
def execMul (m1 m2 m3 : Mode) (s : State) : Host.Outcome State Fault Refusal :=
  storeResult .mul (fun a b => rep s.cfg (a * b)) m1 m2 m3 s

end Sys2Proof.Machine
end

