-- ==== Sys2Proof/Machine/Flags.lean ====
section
/-! DEFINITION. The machine has no flags, condition codes or predicates (10_state R25). What stands in
their place is the truth value a comparison writes to memory (43_compare R162), and the tests the two
jumps make of an ordinary operand (42_control R140, R141). -/

namespace Sys2Proof.Machine

/-- Boolean results are the integers 1 and 0 (R162, 00_scope section 5). -/
def truthWord (b : Bool) : Int := if b then 1 else 0

/-- LessThan's result: signed comparison (R160). -/
def lessThanWord (a b : Int) : Int := truthWord (decide (a < b))

/-- Equals' result (R161). -/
def equalsWord (a b : Int) : Int := truthWord (decide (a = b))

end Sys2Proof.Machine
end

