-- ==== Sys2Proof/Machine/Compare.lean ====
section
/-! DEFINITION. LessThan and Equals (43_compare). The result, 0 or 1, cannot overflow (R160). -/

namespace Sys2Proof.Machine

/-- LessThan (R160). -/
def execLt (m1 m2 m3 : Mode) (s : State) : Host.Outcome State Fault Refusal :=
  storeResult .lt (fun a b => .ok (lessThanWord a b)) m1 m2 m3 s

/-- Equals (R161). -/
def execEq (m1 m2 m3 : Mode) (s : State) : Host.Outcome State Fault Refusal :=
  storeResult .eq (fun a b => .ok (equalsWord a b)) m1 m2 m3 s

end Sys2Proof.Machine
end

