-- ==== Sys2Proof/Machine/Control.lean ====
section
/-! DEFINITION. JumpIfTrue and JumpIfFalse (42_control). The target is the operand's value itself, and a
jump never faults because of it (R142). -/

namespace Sys2Proof.Machine

/-- A conditional jump (30_encoding R87): condition, then target; `ip + 3` is computed only on the path
that falls through. -/
def jumpWhen (k : Kind) (taken : Int → Bool) (m1 m2 : Mode) (s : State) :
    Host.Outcome State Fault Refusal :=
  conclude s do
    let c ← resolveIn s 1 m1
    let t ← resolveIn s 2 m2
    if taken c then pure (s.retire k t)
    else do
      let ip' ← rep s.cfg (s.ip + 3)
      pure (s.retire k ip')

/-- JumpIfTrue (R140): any non-zero condition jumps. -/
def execJt (m1 m2 : Mode) (s : State) : Host.Outcome State Fault Refusal :=
  jumpWhen .jt (fun c => c != 0) m1 m2 s

/-- JumpIfFalse (R141): only 0 jumps. -/
def execJf (m1 m2 : Mode) (s : State) : Host.Outcome State Fault Refusal :=
  jumpWhen .jf (fun c => c == 0) m1 m2 s

end Sys2Proof.Machine
end

