-- ==== Sys2Proof/Machine/InputOutput.lean ====
section
/-! DEFINITION. Input and Output (41_io). -/

namespace Sys2Proof.Machine

/-- Input (R120). The output address is resolved before the queue is looked at (30_encoding R81, D9);
an empty queue suspends (R122); the new `ip` is computed after that (60_exceptions R205, log entry
5). -/
def execInp (m1 : Mode) (s : State) : Host.Outcome State Fault Refusal :=
  conclude s do
    let d ← resolveOut s 1 m1
    match s.inq with
    | [] => pure s.suspend
    | v :: _ => do
      let ip' ← rep s.cfg (s.ip + 2)
      pure ((s.dropInput.storeCell d v).retire .inp ip')

/-- Output (R121): the value goes to the output log and, where a pipe is set, to its target's input
queue, in this same step (R124). -/
def execOut (m1 : Mode) (s : State) : Host.Outcome State Fault Refusal :=
  conclude s do
    let a ← resolveIn s 1 m1
    let ip' ← rep s.cfg (s.ip + 2)
    pure (((s.logOutput a).forward a).retire .out ip')

end Sys2Proof.Machine
end

