-- ==== Sys2Proof/Machine/System.lean ====
section
/-! DEFINITION. AdjustBase and Halt (44_system). -/

namespace Sys2Proof.Machine

/-- AdjustBase (R180): the operand is read with the old `rb`; the new `rb` is checked before the new
`ip` (60_exceptions R205). -/
def execArb (m1 : Mode) (s : State) : Host.Outcome State Fault Refusal :=
  conclude s do
    let a ← resolveIn s 1 m1
    let rb' ← rep s.cfg (s.rb + a)
    let ip' ← rep s.cfg (s.ip + 2)
    pure ((s.setBase rb').retire .arb ip')

/-- Halt (R181): it reads no parameter and computes no new `ip`. -/
def execHlt (s : State) : Host.Outcome State Fault Refusal :=
  conclude s (.ok s.halt)

end Sys2Proof.Machine
end

