-- ==== Sys2Proof/Machine/Fetch.lean ====
section
/-! DEFINITION. Phase 1 of the step cycle (30_encoding R87): the fetch at `ip` and the decode, and where
the next instruction is placed for a test of one step. -/

namespace Sys2Proof.Machine

/-- Fetch and decode: the instruction at `ip`, or the trap raised (R86, R87). -/
def fetchDecode (s : State) : Except Trap Instr := do
  let w ← memRead s s.ip
  decode s.cfg w

/-- Writes a list of words from address `a` on. -/
def storeWords : Memory → Nat → List Int → Memory
  | m, _, [] => m
  | m, a, v :: vs => storeWords (m.write a v) (a + 1) vs

/-- The address the next fetch may read: `ip`, or 0 where `ip` is no address (60_exceptions R205). -/
def fetchAddress (s : State) : Nat :=
  match checkAddress s.cfg s.ip with
  | .ok a => a
  | .error _ => 0

/-- `s`, able to fetch (neither halted nor faulted, `ip` an address), with the instruction word `w` and
three parameter words of 0 at `ip`. It stands for a load of the program from outside (log entry 8). -/
def placeInstruction (s : State) (w : Int) : State :=
  { s with
    mem := storeWords s.mem (fetchAddress s) [w, 0, 0, 0]
    ip := (fetchAddress s : Int)
    halted := false
    fault := .none }

end Sys2Proof.Machine
end

