-- ==== Sys2Proof/Machine/Step.lean ====
section
/-! DEFINITION. One call of `step()` on the instance whose turn it is (30_encoding R87). -/

namespace Sys2Proof.Machine

/-- The step cycle: a faulted or halted instance does nothing (60_exceptions R204, R214); otherwise the
instruction at `ip` is fetched, decoded and executed, or the fault that this raised is taken. -/
def step (s : State) : Host.Outcome State Fault Refusal :=
  match s.fault with
  | some _ => .next s
  | none =>
    if s.halted then .next s
    else
      match fetchDecode s with
      | .ok i => exec i s
      | .error t => .next (s.takeFault t)

/-- `s` with the instruction of word `w` placed where the next step fetches; the words are whole
integers, so the count of bits has no part in it. -/
def State.withFetchWord (s : State) (_nbits w : Nat) : State := placeInstruction s (w : Int)

end Sys2Proof.Machine
end

