-- ==== Sys2Proof/Machine/Construct.lean ====
section
/-! DEFINITION. Reset, which is `construct(program, initial_inputs?)` (70_reset R250). -/

namespace Sys2Proof.Machine

/-- The program fits below MEM_LIMIT (R250). -/
def lengthAdmitted (c : Config) (program : List Int) : Bool :=
  match c.memLimit with
  | none => true
  | some limit => decide (program.length ≤ limit)

/-- `construct(program, initial_inputs)`: the new instance, or `none` where it is refused because a
value is not representable or the program is too long (R250). -/
def construct (c : Config) (program inputs : List Int) : Option Instance :=
  if program.all (fits c) && inputs.all (fits c) && lengthAdmitted c program then
    some { Instance.reset with mem := Memory.image program, inq := inputs }
  else none

end Sys2Proof.Machine
end

