-- ==== Sys2Proof/Machine/ProgramText.lean ====
section
/-! DEFINITION. The program text format, the loader's input (70_reset R255): the parser, the grammar it
is held against, and the decimal writing of an integer. Text is a list of characters. -/

namespace Sys2Proof.Machine

/-- `ws` of the grammar. -/
def isBlank (c : Char) : Bool := c == ' ' || c == '\t' || c == '\r' || c == '\n'

/-- The value of a decimal digit; `none` for any other character. -/
def digitValue (c : Char) : Option Nat :=
  if '0'.toNat ≤ c.toNat ∧ c.toNat ≤ '9'.toNat then some (c.toNat - '0'.toNat) else none

/-- The number that a text of digits only writes, continuing from `acc`. -/
def digitsFrom : Nat → List Char → Option Nat
  | acc, [] => some acc
  | acc, c :: rest =>
    match digitValue c with
    | none => none
    | some d => digitsFrom (10 * acc + d) rest

/-- `digit digit*`: at least one digit, leading zeros allowed. -/
def naturalText (t : List Char) : Option Nat :=
  match t with
  | [] => none
  | c :: rest => digitsFrom 0 (c :: rest)

/-- `integer`: an optional sign and a natural number. -/
def integerText (t : List Char) : Option Int :=
  match t with
  | [] => none
  | c :: rest =>
    if c = '+' then (naturalText rest).map fun n => (n : Int)
    else if c = '-' then (naturalText rest).map fun n => -(n : Int)
    else (naturalText (c :: rest)).map fun n => (n : Int)

/-- The text without blanks at either end. -/
def trimBlanks (t : List Char) : List Char :=
  ((t.dropWhile isBlank).reverse.dropWhile isBlank).reverse

/-- The fields between the commas; at least one, perhaps empty. -/
def splitCommas : List Char → List (List Char)
  | [] => [[]]
  | c :: rest =>
    if c = ',' then [] :: splitCommas rest
    else
      match splitCommas rest with
      | [] => [[c]]
      | field :: fields => (c :: field) :: fields

/-- Reads every field, refusing the whole text if one does not read. -/
def readFields : List (List Char) → Option (List Int)
  | [] => some []
  | f :: fs =>
    match integerText (trimBlanks f), readFields fs with
    | some v, some vs => some (v :: vs)
    | _, _ => none

/-- `program`: the integers of a program text, or `none` for a text outside the grammar (R255). -/
def parseProgram (t : List Char) : Option (List Int) := readFields (splitCommas t)

/-- The loader: the text's integers, refused where one is not representable (R255). -/
def loadProgram (c : Config) (t : List Char) : Option (List Int) :=
  match parseProgram t with
  | none => none
  | some program => if program.all (fits c) then some program else none

/-! ### The grammar of R255, as a relation between a text and what it says -/

/-- `integer := ("+" | "-")? digit digit*`. -/
def IsIntegerText (t : List Char) (v : Int) : Prop :=
  ∃ (sign digits : List Char) (n : Nat),
    t = sign ++ digits ∧ digits ≠ [] ∧ digitsFrom 0 digits = some n ∧
      (((sign = [] ∨ sign = ['+']) ∧ v = (n : Int)) ∨ (sign = ['-'] ∧ v = -(n : Int)))

/-- `ws* integer ws*`. -/
def IsFieldText (t : List Char) (v : Int) : Prop :=
  ∃ before body after : List Char,
    t = before ++ body ++ after ∧ before.all isBlank = true ∧ after.all isBlank = true ∧
      IsIntegerText body v

/-- `program := ws* integer (ws* "," ws* integer)* ws*`: fields joined by commas, at least one. -/
inductive IsProgramText : List Char → List Int → Prop where
  | single (t : List Char) (v : Int) : IsFieldText t v → IsProgramText t [v]
  | more (t rest : List Char) (v : Int) (vs : List Int) :
      IsFieldText t v → IsProgramText rest vs → IsProgramText (t ++ ',' :: rest) (v :: vs)

/-! ### Decimal writing -/

/-- The decimal digits of `n`, most significant first, at most `fuel` of them. -/
def naturalDigits : Nat → Nat → List Char
  | 0, _ => []
  | fuel + 1, n =>
    if n < 10 then [Char.ofNat ('0'.toNat + n)]
    else naturalDigits fuel (n / 10) ++ [Char.ofNat ('0'.toNat + n % 10)]

/-- An integer in decimal, with a minus sign where it is negative. -/
def integerDigits (v : Int) : List Char :=
  if v < 0 then '-' :: naturalDigits (v.natAbs + 1) v.natAbs
  else naturalDigits (v.natAbs + 1) v.natAbs

end Sys2Proof.Machine
end

