-- ==== Sys2Proof/Machine/Assembly.lean ====
section
/-! DEFINITION. The assembly syntax and the pseudo-instructions (30_encoding R88, R89): the lines as
data, how they are written, and the words they assemble to (how they are read is in AssemblyText.lean).
It has no architectural meaning (D20). -/

namespace Sys2Proof.Machine

/-- What a parameter or a data word may be written as: an integer, or a label, which is the address of
the next word after it (R88). -/
inductive AsmValue where
  | number (v : Int)
  | label (name : String)
  deriving DecidableEq, Repr

/-- The operand forms (R88): `[v]`, `v`, and `[rb+v]` or, with `minus`, `[rb-v]`. -/
inductive AsmOperand where
  | position (v : AsmValue)
  | immediate (v : AsmValue)
  | relative (minus : Bool) (v : AsmValue)
  deriving DecidableEq, Repr

/-- The body of a line: an instruction, a pseudo-instruction (R89), or data (`.word`). -/
inductive AsmBody where
  | core (k : Kind) (operands : List AsmOperand)
  | mov (source target : AsmOperand)
  | neg (source target : AsmOperand)
  | jmp (target : AsmOperand)
  | jnz (condition target : AsmOperand)
  | jz (condition target : AsmOperand)
  | nop
  | word (values : List AsmValue)
  deriving DecidableEq, Repr

/-- One line: an optional label and an optional body. -/
structure AsmLine where
  label : Option String
  body : Option AsmBody
  deriving DecidableEq, Repr

/-- The expansion of the pseudo-instructions, each to exactly one real instruction (R89). -/
def AsmBody.expand : AsmBody → AsmBody
  | .core k ops => .core k ops
  | .mov source target => .core .add [source, .immediate (.number 0), target]
  | .neg source target => .core .mul [source, .immediate (.number (-1)), target]
  | .jmp target => .core .jt [.immediate (.number 1), target]
  | .jnz condition target => .core .jt [condition, target]
  | .jz condition target => .core .jf [condition, target]
  | .nop => .core .arb [.immediate (.number 0)]
  | .word vs => .word vs

/-- The mode digit an operand form sets (R88). -/
def AsmOperand.mode : AsmOperand → Mode
  | .position _ => .position
  | .immediate _ => .immediate
  | .relative _ _ => .relative

/-- The instruction of a kind with these operands: refused where their count is not the kind's arity or
the output operand is immediate (R88). -/
def asmInstr (k : Kind) (ops : List AsmOperand) : Option Instr :=
  if ops.length = k.arity then
    let i := instrOf k fun j => ((ops[j - 1]?).map AsmOperand.mode).getD .position
    if i.wellFormed then some i else none
  else none

/-- How many words a body takes. -/
def AsmBody.size (b : AsmBody) : Nat :=
  match b.expand with
  | .core k _ => k.length
  | .word vs => vs.length
  | _ => 0

/-- How many words a line takes; none where it has no body. -/
def AsmLine.size (l : AsmLine) : Nat :=
  match l.body with
  | none => 0
  | some b => b.size

/-- The address of every label, for lines placed from address `a` on (R88). -/
def labelsFrom : Nat → List AsmLine → List (String × Nat)
  | _, [] => []
  | a, line :: rest =>
    match line.label with
    | none => labelsFrom (a + line.size) rest
    | some name => (name, a) :: labelsFrom (a + line.size) rest

/-- The integer a value stands for; `none` for a label that is not defined. -/
def AsmValue.resolve (labels : List (String × Nat)) : AsmValue → Option Int
  | .number v => some v
  | .label name => (labels.lookup name).map fun a => (a : Int)

/-- The parameter word that an operand form writes (R88). -/
def AsmOperand.resolve (labels : List (String × Nat)) : AsmOperand → Option Int
  | .position v => v.resolve labels
  | .immediate v => v.resolve labels
  | .relative false v => v.resolve labels
  | .relative true v => (v.resolve labels).map fun x => -x

/-- The members of a list that are all there, or `none` if one is not. -/
def allOrNone : List (Option Int) → Option (List Int)
  | [] => some []
  | none :: _ => none
  | some v :: rest =>
    match allOrNone rest with
    | none => none
    | some vs => some (v :: vs)

/-- The words of one body. -/
def AsmBody.words (labels : List (String × Nat)) (b : AsmBody) : Option (List Int) :=
  match b.expand with
  | .core k ops =>
    match asmInstr k ops, allOrNone (ops.map (AsmOperand.resolve labels)) with
    | some i, some ps => some (encodeWords i ps)
    | _, _ => none
  | .word vs => allOrNone (vs.map (AsmValue.resolve labels))
  | _ => none

/-- The words of one line. -/
def AsmLine.words (labels : List (String × Nat)) (l : AsmLine) : Option (List Int) :=
  match l.body with
  | none => some []
  | some b => b.words labels

/-- The words of all lines in order. -/
def assembleLines (labels : List (String × Nat)) : List AsmLine → Option (List Int)
  | [] => some []
  | line :: rest =>
    match line.words labels, assembleLines labels rest with
    | some ws, some more => some (ws ++ more)
    | _, _ => none

/-- The program image a listing assembles to (R88). -/
def assemble (lines : List AsmLine) : Option (List Int) := assembleLines (labelsFrom 0 lines) lines

/-! ### How a line is written -/

/-- The mnemonics (R73). -/
def mnemonicOf : Kind → List Char
  | .add => ['a', 'd', 'd']
  | .mul => ['m', 'u', 'l']
  | .inp => ['i', 'n']
  | .out => ['o', 'u', 't']
  | .jt => ['j', 't']
  | .jf => ['j', 'f']
  | .lt => ['l', 't']
  | .eq => ['e', 'q']
  | .arb => ['a', 'r', 'b']
  | .hlt => ['h', 'l', 't']

/-- A value as written. -/
def AsmValue.write : AsmValue → List Char
  | .number v => integerDigits v
  | .label name => name.toList

/-- An operand as written (R88). -/
def AsmOperand.write : AsmOperand → List Char
  | .position v => '[' :: v.write ++ [']']
  | .immediate v => v.write
  | .relative false v => ['[', 'r', 'b', '+'] ++ v.write ++ [']']
  | .relative true v => ['[', 'r', 'b', '-'] ++ v.write ++ [']']

/-- Items joined by a comma and a space. -/
def joinItems : List (List Char) → List Char
  | [] => []
  | [x] => x
  | x :: y :: rest => x ++ [',', ' '] ++ joinItems (y :: rest)

/-- A mnemonic and its operands. -/
def writeItems (name : List Char) (items : List (List Char)) : List Char :=
  match items with
  | [] => name
  | x :: rest => name ++ ' ' :: joinItems (x :: rest)

/-- A body as written (R88, R89). -/
def AsmBody.write : AsmBody → List Char
  | .core k ops => writeItems (mnemonicOf k) (ops.map AsmOperand.write)
  | .mov s d => writeItems ['m', 'o', 'v'] [s.write, d.write]
  | .neg s d => writeItems ['n', 'e', 'g'] [s.write, d.write]
  | .jmp t => writeItems ['j', 'm', 'p'] [t.write]
  | .jnz c t => writeItems ['j', 'n', 'z'] [c.write, t.write]
  | .jz c t => writeItems ['j', 'z'] [c.write, t.write]
  | .nop => ['n', 'o', 'p']
  | .word vs => writeItems ['.', 'w', 'o', 'r', 'd'] (vs.map AsmValue.write)

/-- A line as written: `[label:] mnemonic operand, operand, ...` (R88). -/
def AsmLine.write (l : AsmLine) : List Char :=
  (match l.label with
    | none => []
    | some name => name.toList ++ [':', ' ']) ++
  (match l.body with
    | none => []
    | some b => b.write)

end Sys2Proof.Machine
end

