-- ==== Sys2Proof/Machine/AssemblyText.lean ====
section
/-! DEFINITION. Reading assembly text (30_encoding R88, R89): lines of the form
`[label:] mnemonic operand, operand, ...` with a comment after `;`. Blanks may stand around every part,
and a label's name is letters, digits and underscores, beginning with none of the digits (DESIGN CHOICE,
log entry 12: the spec gives no rule for either). -/

namespace Sys2Proof.Machine

/-- A character that a label's name may begin with. -/
def isNameStart (c : Char) : Bool :=
  decide ('a'.toNat ≤ c.toNat ∧ c.toNat ≤ 'z'.toNat) || decide ('A'.toNat ≤ c.toNat ∧ c.toNat ≤ 'Z'.toNat) ||
    c == '_'

/-- A label's name, if the text is one. -/
def readName (t : List Char) : Option String :=
  match t with
  | [] => none
  | c :: rest =>
    if isNameStart c && rest.all (fun d => isNameStart d || (digitValue d).isSome) then
      some (String.ofList (c :: rest))
    else none

/-- An integer or a label, blanks around it discarded. -/
def readValue (t : List Char) : Option AsmValue :=
  match integerText (trimBlanks t) with
  | some v => some (.number v)
  | none => (readName (trimBlanks t)).map .label

/-- The text before a last `]`, if it ends so. -/
def dropClosing (t : List Char) : Option (List Char) :=
  match t.reverse with
  | ']' :: rest => some rest.reverse
  | _ => none

/-- The inside of brackets: `rb+v`, `rb-v` or `v`. -/
def readBracket (t : List Char) : Option AsmOperand :=
  match t with
  | 'r' :: 'b' :: '+' :: v => (readValue v).map (.relative false)
  | 'r' :: 'b' :: '-' :: v => (readValue v).map (.relative true)
  | _ => (readValue t).map .position

/-- An operand (R88). -/
def readOperand (t : List Char) : Option AsmOperand :=
  match trimBlanks t with
  | '[' :: rest =>
    match dropClosing rest with
    | none => none
    | some inner => readBracket (trimBlanks inner)
  | _ => (readValue t).map .immediate

/-- The items that a reader reads, all of them or none. -/
def readAll {α : Type} (read : List Char → Option α) : List (List Char) → Option (List α)
  | [] => some []
  | t :: ts =>
    match read t, readAll read ts with
    | some x, some xs => some (x :: xs)
    | _, _ => none

/-- The items between commas; none at all for a text of blanks only. -/
def itemsOf (t : List Char) : List (List Char) :=
  match trimBlanks t with
  | [] => []
  | c :: rest => splitCommas (c :: rest)

/-- The ten kinds. -/
def allKinds : List Kind := [.add, .mul, .inp, .out, .jt, .jf, .lt, .eq, .arb, .hlt]

/-- The body with a mnemonic or a pseudo-instruction's name and its operands (R73, R89). -/
def readBody (name : List Char) (ops : List AsmOperand) : Option AsmBody :=
  match allKinds.find? (fun k => mnemonicOf k == name) with
  | some k => some (.core k ops)
  | none =>
    match name, ops with
    | ['m', 'o', 'v'], [s, d] => some (.mov s d)
    | ['n', 'e', 'g'], [s, d] => some (.neg s d)
    | ['j', 'm', 'p'], [t] => some (.jmp t)
    | ['j', 'n', 'z'], [c, t] => some (.jnz c t)
    | ['j', 'z'], [c, t] => some (.jz c t)
    | ['n', 'o', 'p'], [] => some .nop
    | _, _ => none

/-- What stands on a line after its label: nothing, or a body. -/
def readRest (t : List Char) : Option (Option AsmBody) :=
  let text := trimBlanks t
  let name := text.takeWhile fun c => !isBlank c
  let items := itemsOf (text.dropWhile fun c => !isBlank c)
  if text = [] then some none
  else if name = ['.', 'w', 'o', 'r', 'd'] then
    (readAll readValue items).map fun vs => some (.word vs)
  else
    match readAll readOperand items with
    | none => none
    | some ops => (readBody name ops).map some

/-- One line of text (R88). -/
def readLine (t : List Char) : Option AsmLine :=
  let text := t.takeWhile fun c => c != ';'
  match text.dropWhile (fun c => c != ':') with
  | [] => (readRest text).map fun b => ⟨none, b⟩
  | _ :: rest =>
    match readName (trimBlanks (text.takeWhile fun c => c != ':')), readRest rest with
    | some name, some b => some ⟨some name, b⟩
    | _, _ => none

/-- The lines of a text. -/
def splitLines : List Char → List (List Char)
  | [] => [[]]
  | c :: rest =>
    if c = '\n' then [] :: splitLines rest
    else
      match splitLines rest with
      | [] => [[c]]
      | line :: lines => (c :: line) :: lines

/-- The program image of an assembly text (R88), or `none` where a line does not read. -/
def assembleText (t : List Char) : Option (List Int) :=
  match readAll readLine (splitLines t) with
  | none => none
  | some lines => assemble lines

end Sys2Proof.Machine
end

