-- ==== Sys2Proof/Machine/HostCalls.lean ====
section
/-! DEFINITION. The host interface (60_exceptions R213 to R225) and the group of instances (R226 to
R231). Every call is one atomic transition between steps (R225). Which call comes next, and on which
instance, is the host's choice: a run is any list of actions (R228). -/

namespace Sys2Proof.Machine

/-! ### Codes, the spec's own labels -/

/-- The numeric code of a cause (R200). -/
def causeCode : Cause → Nat
  | .invalidOpcode => 1
  | .negativeAddress => 2
  | .invalidOutputMode => 3
  | .invalidMode => 4
  | .wordOverflow => 5
  | .addressLimit => 6

/-- The numeric code of `lastop` (10_state R27). -/
def LastOp.code : LastOp → Nat
  | .none => 0
  | .executed k => k.opcode
  | .suspended => 100

/-! ### The status a step returns -/

/-- The four statuses (R213). -/
inductive StepStatus where
  | executed (k : Kind)
  | suspended
  | halted
  | fault (r : FaultRecord)
  deriving DecidableEq, Repr

/-- The numeric code of a status (R213). -/
def StepStatus.code : StepStatus → Nat
  | .executed _ => 0
  | .suspended => 1
  | .halted => 2
  | .fault _ => 3

/-- The status returned by the step that leads from `s` to `t` (30_encoding R87, R213). After a step
that neither faults nor stands still, `lastop` holds the kind executed or SUSPENDED. -/
def stepStatus (s t : State) : StepStatus :=
  match s.fault with
  | some r => .fault r
  | none =>
    if s.halted then .halted
    else
      match t.fault with
      | some r => .fault r
      | none =>
        match t.lastop with
        | .executed k => .executed k
        | .suspended => .suspended
        | .none => .suspended

/-! ### Peek -/

/-- What `peek_next_operation()` returns (R215). -/
inductive PeekResult where
  | faulted
  | halted
  | invalid
  | kind (k : Kind)
  deriving DecidableEq, Repr

/-- `peek_next_operation()` (R215): the kind selected by `w mod 100`, with no look at mode digits or
parameters. It changes nothing. -/
def peek (s : State) : PeekResult :=
  match s.fault with
  | some _ => .faulted
  | none =>
    if s.halted then .halted
    else
      match fetchedWord s with
      | none => .invalid
      | some w =>
        if w < 0 then .invalid
        else
          match kindOf (w.toNat % 100) with
          | none => .invalid
          | some k => .kind k

/-! ### Snapshots -/

/-- A snapshot: everything but `pipe` (R221). -/
structure Snapshot where
  mem : Memory
  ip : Int
  rb : Int
  inq : List Int
  outlog : List Int
  halted : Bool
  lastop : LastOp
  fault : Option FaultRecord
  deriving DecidableEq, Repr

/-- `export()` (R221): a value, so a deep copy. -/
def Instance.snapshot (m : Instance) : Snapshot :=
  { mem := m.mem, ip := m.ip, rb := m.rb, inq := m.inq, outlog := m.outlog, halted := m.halted,
    lastop := m.lastop, fault := m.fault }

/-- `import(S)` (R222): every field but `pipe` is replaced. -/
def Instance.restore (m : Instance) (snap : Snapshot) : Instance :=
  { mem := snap.mem, ip := snap.ip, rb := snap.rb, inq := snap.inq, outlog := snap.outlog,
    halted := snap.halted, lastop := snap.lastop, pipe := m.pipe, fault := snap.fault }

/-- `import(S)` on the instance whose turn it is. -/
def State.restore (s : State) (snap : Snapshot) : State :=
  { s with toInstance := s.toInstance.restore snap }

/-! ### The group of instances -/

/-- The record of the instance of identity `t`, whoever's turn it is. -/
def State.instanceAt (s : State) (t : InstanceId) : Option Instance :=
  if t = s.self then some s.toInstance else findKey s.peers t

/-- The state has an instance of this identity. -/
def State.knows (s : State) (t : InstanceId) : Bool := (s.instanceAt t).isSome

/-- The same group with the turn given to instance `t`; `none` where there is no such instance. -/
def State.focus (s : State) (t : InstanceId) : Option State :=
  if t = s.self then some s
  else
    match findKey s.peers t with
    | none => none
    | some m =>
      some { m with
        self := t
        peers := putKey (dropKey s.peers t) s.self s.toInstance
        cfg := s.cfg }

/-- Adds the instance that `construct` makes, under a new identity (R223, R226); `none` where
`construct` refuses or the identity is in use. -/
def State.addInstance (s : State) (t : InstanceId) (program inputs : List Int) : Option State :=
  if s.knows t then none
  else (construct s.cfg program inputs).map fun m => { s with peers := putKey s.peers t m }

/-! ### Calls -/

/-- The operations on one instance (R213 to R222). -/
inductive HostCall where
  | step
  | peekNextOperation
  | appendInput (v : Int)
  | readOutput
  | drainOutput (k : Nat)
  | truncateOutput (k : Nat)
  | readHalted
  | readLastop
  | readFault
  | pipeInto (other : InstanceId)
  | exportState
  | importState (snap : Snapshot)
  deriving DecidableEq, Repr

/-- What a call returns. -/
inductive HostReply where
  | status (st : StepStatus)
  | peeked (p : PeekResult)
  | values (vs : List Int)
  | halted (b : Bool)
  | lastop (l : LastOp)
  | fault (f : Option FaultRecord)
  | snapshot (snap : Snapshot)
  | done
  | refused
  deriving DecidableEq, Repr

/-- `step()` as the host sees it: the new state and the status. `Machine.step` always answers a next
state. -/
def callStep (s : State) : State × HostReply :=
  match step s with
  | .next t => (t, .status (stepStatus s t))
  | .fault _ => (s, .refused)
  | .refused _ => (s, .refused)

/-- `append_input(v)` (R216): legal in every state, refused if `v` is not representable. -/
def callAppendInput (s : State) (v : Int) : State × HostReply :=
  if fits s.cfg v then ({ s with inq := s.inq ++ [v] }, .done) else (s, .refused)

/-- `drain_output(k)` (R218): removes and returns the oldest `k` entries. -/
def callDrainOutput (s : State) (k : Nat) : State × HostReply :=
  if k ≤ s.outlog.length then ({ s with outlog := s.outlog.drop k }, .values (s.outlog.take k))
  else (s, .refused)

/-- `truncate_output(k)` (R218): removes the newest `k` entries. -/
def callTruncateOutput (s : State) (k : Nat) : State × HostReply :=
  if k ≤ s.outlog.length then
    ({ s with outlog := s.outlog.take (s.outlog.length - k) }, .done)
  else (s, .refused)

/-- `pipe_into(other)` (R220): sets or replaces the target, which may be this instance itself; refused
where no instance has that identity (log entry 4). -/
def callPipeInto (s : State) (other : InstanceId) : State × HostReply :=
  if s.knows other then ({ s with pipe := some other }, .done) else (s, .refused)

/-- One call on the instance whose turn it is. -/
def callHere (s : State) : HostCall → State × HostReply
  | .step => callStep s
  | .peekNextOperation => (s, .peeked (peek s))
  | .appendInput v => callAppendInput s v
  | .readOutput => (s, .values s.outlog)
  | .drainOutput k => callDrainOutput s k
  | .truncateOutput k => callTruncateOutput s k
  | .readHalted => (s, .halted s.halted)
  | .readLastop => (s, .lastop s.lastop)
  | .readFault => (s, .fault s.fault)
  | .pipeInto other => callPipeInto s other
  | .exportState => (s, .snapshot s.toInstance.snapshot)
  | .importState snap => (s.restore snap, .done)

/-- What the host does: a call on one instance, or the construction of a new one. -/
inductive Action where
  | call (target : InstanceId) (c : HostCall)
  | construct (target : InstanceId) (program inputs : List Int)
  deriving DecidableEq, Repr

/-- One action of the host on the group (R224, R225). -/
def act (s : State) : Action → State × HostReply
  | .call target c =>
    match s.focus target with
    | none => (s, .refused)
    | some t => callHere t c
  | .construct target program inputs =>
    match s.addInstance target program inputs with
    | none => (s, .refused)
    | some t => (t, .done)

/-- The state after a list of actions, whatever the host chose (R228). -/
def actAll (s : State) : List Action → State
  | [] => s
  | a :: rest => actAll (act s a).1 rest

/-- The state after `n` steps of the instance whose turn it is. -/
def stepTimes : Nat → State → State
  | 0, s => s
  | n + 1, s => stepTimes n (callStep s).1

end Sys2Proof.Machine
end

