-- ==== Sys2Proof/Machine/RunState.lean ====
section
/-! DEFINITION. The outcome state of an instance between steps, and the end of a run (70_reset R261,
R262). -/

namespace Sys2Proof.Machine

/-- The four outcome states (R261). -/
inductive RunState where
  | halted
  | faulted
  | waiting
  | runnable
  deriving DecidableEq, Repr

/-- The instruction at `ip` is an Input whose phases 1 and 2 do not fault, and the queue is empty
(R261). -/
def waitsForInput (s : State) : Bool :=
  match s.inq, fetchDecode s with
  | [], .ok (.inp m1) => (resolveOut s 1 m1).isOk
  | _, _ => false

/-- The outcome state of the instance whose turn it is (R261). -/
def runState (s : State) : RunState :=
  if s.fault.isSome then .faulted
  else if s.halted then .halted
  else if waitsForInput s then .waiting
  else .runnable

/-! ### Runs

A run is that of one instance or of a set of instances, named by the list of their identities (R262, log
entry 16); instances of the group outside the list have no part in it. -/

/-- The outcome state of the instance of identity `id`; `none` where there is none. -/
def State.outcomeOf (s : State) (id : InstanceId) : Option RunState := (s.focus id).map runState

/-- The outcome ends a member's part in a run: halted, faulted or waiting (R262). -/
def isEndOutcome : Option RunState → Bool
  | some .halted => true
  | some .faulted => true
  | some .waiting => true
  | some .runnable => false
  | none => false

/-- The run of the instances `ids` has ended: every one is halted, faulted or waiting (R262). -/
def runEnded (s : State) (ids : List InstanceId) : Bool := ids.all fun id => isEndOutcome (s.outcomeOf id)

/-- The run has succeeded: every instance is halted (R262). -/
def runSucceeded (s : State) (ids : List InstanceId) : Bool :=
  ids.all fun id => s.outcomeOf id == some .halted

/-- The run has failed: an instance is faulted (R262). -/
def runFailed (s : State) (ids : List InstanceId) : Bool :=
  ids.any fun id => s.outcomeOf id == some .faulted

/-- The run is stuck: it has ended, and an instance waits for input; since no instance of the run will
execute an Output again, nothing in it will feed that one (R262). -/
def runStuck (s : State) (ids : List InstanceId) : Bool :=
  runEnded s ids && ids.any fun id => s.outcomeOf id == some .waiting

/-- The observable results: each instance's output log, and its memory through `export` (R262). -/
def runResults (s : State) (ids : List InstanceId) : List (Option (List Int × Memory)) :=
  ids.map fun id => (s.instanceAt id).map fun m => (m.outlog, m.snapshot.mem)

/-- The state after the steps of a schedule: the host makes no calls but `step` (R262, 60_exceptions
R228). -/
def stepAll (s : State) (schedule : List InstanceId) : State :=
  actAll s (schedule.map fun id => .call id .step)

/-! ### Sets of instances joined by pipes -/

/-- The identities of the group. -/
def State.identities (s : State) : List InstanceId := s.self :: s.peers.map Prod.fst

/-- The pipe of one of the two instances names the other. -/
def State.piped (s : State) (a b : InstanceId) : Bool :=
  (s.instanceAt a).any (fun m => m.pipe == some b) || (s.instanceAt b).any (fun m => m.pipe == some a)

/-- The identities in `ids`, and those that a pipe joins to one of them, `n` times over. -/
def State.joinTimes (s : State) : Nat → List InstanceId → List InstanceId
  | 0, ids => ids
  | n + 1, ids =>
    s.joinTimes n (s.identities.filter fun b => ids.contains b || ids.any fun a => s.piped a b)

/-- The set of instances that pipes join to instance `a`, itself among them (R262). -/
def State.joinedWith (s : State) (a : InstanceId) : List InstanceId :=
  s.joinTimes s.identities.length [a]

end Sys2Proof.Machine
end

