-- ==== Sys2Proof/Safety.lean ====
section
/-! DEFINITION. What a good state is, in the terms the statements use: the value domain, the canonical
memory, and the relations between status fields that the rules of the spec maintain. -/

namespace Sys2Proof.Machine

/-- The next step fetches: the instance has neither halted nor faulted (30_encoding R87). -/
abbrev Running (s : State) : Prop := s.fault = none ∧ s.halted = false

/-- Every listed cell is below MEM_LIMIT and holds a representable value (00_scope R4 to R6). -/
def cellsInDomain (c : Config) (m : Memory) : Bool := m.all fun e => admits c e.1 && fits c e.2

/-- What every reachable instance satisfies. -/
structure Instance.Good (c : Config) (m : Instance) : Prop where
  /-- the memory is in its canonical form (20_memory R53) -/
  memory_canonical : m.mem.wf = true
  /-- every cell is in the value domain, below the limit (00_scope R4) -/
  cells_in_domain : cellsInDomain c m.mem = true
  /-- the instruction pointer is in the value domain (10_state R22) -/
  ip_in_domain : fits c m.ip = true
  /-- the relative base is in the value domain (10_state R24) -/
  rb_in_domain : fits c m.rb = true
  /-- every queued input is in the value domain (00_scope R4) -/
  inputs_in_domain : m.inq.all (fits c) = true
  /-- every logged output is in the value domain (00_scope R4) -/
  outputs_in_domain : m.outlog.all (fits c) = true
  /-- a halted instance did not fault, and `lastop` holds the halted indicator (60_exceptions R214) -/
  halted_clean : m.halted = true → m.fault = none ∧ m.lastop = .executed .hlt
  /-- the record names the instruction pointer at which the instance stopped (60_exceptions R201) -/
  fault_at_ip : ∀ r, m.fault = some r → r.ip = m.ip

/-- What every reachable state of the group satisfies. -/
structure State.Good (s : State) : Prop where
  /-- the parameters are permitted ones (00_scope R5, R6) -/
  parameters_valid : configValid s.cfg = true
  /-- the instance whose turn it is -/
  own_good : s.toInstance.Good s.cfg
  /-- every other instance -/
  peers_good : ∀ p, p ∈ s.peers → p.2.Good s.cfg
  /-- identities are distinct (60_exceptions R226) -/
  peers_sorted : keysRise 0 s.peers = true
  /-- no peer has the identity of the instance whose turn it is -/
  self_apart : findKey s.peers s.self = none
  /-- the pipe, where there is one, names an instance of the group (10_state R28) -/
  own_pipe_known : ∀ t, s.pipe = some t → s.knows t = true
  /-- so does every peer's -/
  peer_pipes_known : ∀ p, p ∈ s.peers → ∀ t, p.2.pipe = some t → s.knows t = true

/-- A snapshot that an instance with the parameters `c` may have given (60_exceptions R221): restored
into the instance after reset, it is good. -/
def Snapshot.Good (c : Config) (snap : Snapshot) : Prop := (Instance.reset.restore snap).Good c

end Sys2Proof.Machine
end

