-- ==== Sys2Proof/Certificates/Slice0/Obligations.lean ====
section
/-! DEFINITION. The statements for the provers. Each holds for every state and every value of the
parameters unless it says otherwise, in states no run reaches too. -/

open Sys2Proof Sys2Proof.Machine

/-! ### Encoding -/

/-- 30_encoding R86, R88: decoding the word of a well-formed instruction gives the instruction back,
under every value of the parameters. -/
def Obligations.DecodeInvertsEncode : Prop :=
  ∀ (c : Config) (i : Instr), i.wellFormed = true → decode c (encode i) = .ok i

/-- 30_encoding R71, R76, R86: a word that decodes is the encoding of what it decodes to, digit for
digit, but for excess digits, which only `ignore` admits. -/
def Obligations.DecodedWordIsEncoding : Prop :=
  ∀ (c : Config) (w : Int) (i : Instr), decode c w = .ok i →
    i.wellFormed = true ∧ 0 ≤ w ∧ w % ((10 ^ (i.kind.arity + 2) : Nat) : Int) = encode i ∧
      (c.excess = .fault → w = encode i)

/-- 30_encoding R79: exactly 99 legal words, by format, every other integer faulting when fetched, and
infinitely many legal words under `ignore`. -/
def Obligations.LegalWordsCounted : Prop :=
  (∃ words : List Int, words.Nodup ∧ words.length = 99 ∧
    (∀ w : Int, w ∈ words ↔
      (∃ op m1 m2 m3 : Nat, (op = 1 ∨ op = 2 ∨ op = 7 ∨ op = 8) ∧ m1 ≤ 2 ∧ m2 ≤ 2 ∧ (m3 = 0 ∨ m3 = 2) ∧
        w = ((op + 100 * m1 + 1000 * m2 + 10000 * m3 : Nat) : Int)) ∨
      (∃ op m1 m2 : Nat, (op = 5 ∨ op = 6) ∧ m1 ≤ 2 ∧ m2 ≤ 2 ∧
        w = ((op + 100 * m1 + 1000 * m2 : Nat) : Int)) ∨
      (∃ op m1 : Nat, (op = 4 ∨ op = 9) ∧ m1 ≤ 2 ∧ w = ((op + 100 * m1 : Nat) : Int)) ∨
      w = 3 ∨ w = 203 ∨ w = 99) ∧
    (∀ op : Int, op = 1 ∨ op = 2 ∨ op = 7 ∨ op = 8 →
      (words.filter fun w => w % 100 == op).length = 18) ∧
    (∀ op : Int, op = 5 ∨ op = 6 → (words.filter fun w => w % 100 == op).length = 9) ∧
    (∀ op : Int, op = 4 ∨ op = 9 → (words.filter fun w => w % 100 == op).length = 3) ∧
    (∀ (c : Config) (w : Int), c.excess = .fault → (w ∈ words ↔ ∃ i, decode c w = .ok i)) ∧
    (∀ (s : State) (w : Int), Running s → s.cfg.excess = .fault → memRead s s.ip = .ok w → w ∉ words →
      ∃ r, step s = .next { s with fault := some r })) ∧
  (∀ (c : Config) (bound : Int), c.excess = .ignore → ∃ w i, bound < w ∧ decode c w = .ok i)

/-- 30_encoding R72, R74: a negative word, and a word whose opcode value is 0 or 10 to 98, raise
InvalidOpcode, with the opcode, the raw word and the instruction pointer in the record. -/
def Obligations.IllegalOpcodesFault : Prop :=
  ∀ (s : State) (w : Int), Running s → memRead s s.ip = .ok w →
    (w < 0 → step s = .next
      { s with fault := some ⟨.invalidOpcode, s.ip, some w, none⟩ }) ∧
    (0 ≤ w → (w % 100 = 0 ∨ (10 ≤ w % 100 ∧ w % 100 ≤ 98)) → step s = .next
      { s with fault := some ⟨.invalidOpcode, s.ip, some w, some (w % 100)⟩ })

/-- 30_encoding R75, R76: mode digits 3 to 9 in a used position raise InvalidMode; the digits 0, 1 and 2
never do; digits above the last parameter's raise it under `fault` and are discarded unread under
`ignore`. -/
def Obligations.ModeDigitsChecked : Prop :=
  (∀ (s : State) (w : Nat) (k : Kind), Running s → memRead s s.ip = .ok (w : Int) →
    kindOf (w % 100) = some k →
    (∀ j, 1 ≤ j → j ≤ k.arity → 3 ≤ digit w (j + 1) →
      step s = .next (s.takeFault ⟨.invalidMode, none⟩)) ∧
    (s.cfg.excess = .fault → w / 10 ^ (k.arity + 2) ≠ 0 →
      step s = .next (s.takeFault ⟨.invalidMode, none⟩)) ∧
    (s.cfg.excess = .ignore →
      decode s.cfg (w : Int) = decode s.cfg ((w % 10 ^ (k.arity + 2) : Nat) : Int)) ∧
    ((∀ j, 1 ≤ j → j ≤ k.arity → digit w (j + 1) ≤ 2) →
      (s.cfg.excess = .ignore ∨ w / 10 ^ (k.arity + 2) = 0) →
      decode s.cfg (w : Int) ≠ .error ⟨.invalidMode, none⟩)) ∧
  (modeOfDigit 0 = some .position ∧ modeOfDigit 1 = some .immediate ∧ modeOfDigit 2 = some .relative) ∧
  (∀ c : Config, c.excess = .fault →
    decode c 199 = .error ⟨.invalidMode, none⟩ ∧ decode c 1104 = .error ⟨.invalidMode, none⟩) ∧
  (∀ c : Config, c.excess = .ignore → decode c 199 = .ok .hlt) ∧
  causeCode .invalidMode = 4

/-- 30_encoding R77: with every digit legal, mode 1 on the output parameter raises InvalidOutputMode;
otherwise the word decodes to the kind its opcode selects with the modes its digits name, so mode 1 on
an input parameter is always legal. -/
def Obligations.OutputModeChecked : Prop :=
  ∀ (s : State) (w : Nat) (k : Kind), Running s → memRead s s.ip = .ok (w : Int) →
    kindOf (w % 100) = some k →
    (∀ j, 1 ≤ j → j ≤ k.arity → digit w (j + 1) ≤ 2) →
    (s.cfg.excess = .ignore ∨ w / 10 ^ (k.arity + 2) = 0) →
    (k.outputs = 1 → digit w (k.arity + 1) = 1 →
      step s = .next (s.takeFault ⟨.invalidOutputMode, none⟩)) ∧
    ((k.outputs = 0 ∨ digit w (k.arity + 1) ≠ 1) →
      ∃ i, decode s.cfg (w : Int) = .ok i ∧ i.kind = k ∧
        i.modes.map Mode.digit = (List.range k.arity).map fun j => digit w (j + 2))

/-- 95_test_vectors 2.1 and 30_encoding R84: words of the spec's own decode table, one or more of every
kind, and the lengths of the ten kinds. -/
def Obligations.SpecWordsDecode : Prop :=
  decode Config.standard 1 = .ok (.add .position .position .position) ∧
  decode Config.standard 20001 = .ok (.add .position .position .relative) ∧
  decode Config.standard 1002 = .ok (.mul .position .immediate .position) ∧
  decode Config.standard 203 = .ok (.inp .relative) ∧
  decode Config.standard 104 = .ok (.out .immediate) ∧
  decode Config.standard 2105 = .ok (.jt .immediate .relative) ∧
  decode Config.standard 1106 = .ok (.jf .immediate .immediate) ∧
  decode Config.standard 21107 = .ok (.lt .immediate .immediate .relative) ∧
  decode Config.standard 22208 = .ok (.eq .relative .relative .relative) ∧
  decode Config.standard 209 = .ok (.arb .relative) ∧
  decode Config.standard 99 = .ok .hlt ∧
  [Kind.add, .mul, .inp, .out, .jt, .jf, .lt, .eq, .arb, .hlt].map Kind.length =
    [4, 4, 2, 2, 3, 3, 4, 4, 2, 1]

/-! ### The step cycle -/

/-- 30_encoding R87: a step of a running instance whose fetched word decodes to `i` is `exec i`, with
nothing around it; so is one whose cell at `ip` holds the encoding of a well-formed `i`. -/
def Obligations.StepRunsDecodedInstruction : Prop :=
  (∀ (s : State) (w : Int) (i : Instr), Running s → memRead s s.ip = .ok w → decode s.cfg w = .ok i →
    step s = exec i s) ∧
  (∀ (s : State) (a : Nat) (i : Instr), Running s → s.ip = (a : Int) → admits s.cfg a = true →
    i.wellFormed = true → s.mem.read a = encode i → step s = exec i s)

/-- The model's own placing of a word for a test of one step (log entry 8): the next step runs the
instruction that the decoder reads from that word. -/
def Obligations.PlacedInstructionRuns : Prop :=
  ∀ (s : State) (nbits w : Nat) (i : Instr), s.cfg = Config.standard → decodeTableWord nbits w = some i →
    step (s.withFetchWord nbits w) = exec i (s.withFetchWord nbits w)

/-- 60_exceptions R201, R205 item 3: a fetch at a negative address, or at or above MEM_LIMIT, is a fault
whose record has no word. -/
def Obligations.FetchFaultHasNoWord : Prop :=
  ∀ s : State, Running s →
    (s.ip < 0 → step s = .next
      { s with fault := some ⟨.negativeAddress, s.ip, none, some s.ip⟩ }) ∧
    (0 ≤ s.ip → admits s.cfg s.ip.toNat = false → step s = .next
      { s with fault := some ⟨.addressLimit, s.ip, none, some s.ip⟩ })

/-- 30_encoding R87, 60_exceptions R202, R204, R214: a step, and every instruction in every state, has a
next state: the machine never stops without one. -/
def Obligations.EveryStepAnswersNext : Prop :=
  (∀ (i : Instr) (s : State), ∃ t, exec i s = .next t) ∧ (∀ s : State, ∃ t, step s = .next t)

/-- 60_exceptions R204: while the fault register is set every step returns the same record and changes
nothing; no host operation but `import` clears it; taking a fault does not touch `halted`. -/
def Obligations.FaultIsSticky : Prop :=
  (∀ (s : State) (r : FaultRecord), s.fault = some r →
    callStep s = (s, .status (.fault r)) ∧ (∀ n, stepTimes n s = s) ∧
    (∀ c : HostCall, (∀ snap, c ≠ .importState snap) → (callHere s c).1.fault = some r)) ∧
  (∀ (s : State) (e : Trap), (s.takeFault e).halted = s.halted)

/-- 60_exceptions R214: stepping or querying a halted instance is a no-op with the halted indicator, and
in a good state `lastop` already holds HLT. -/
def Obligations.HaltedStepDoesNothing : Prop :=
  ∀ s : State, s.fault = none → s.halted = true →
    callStep s = (s, .status .halted) ∧ callHere s .peekNextOperation = (s, .peeked .halted) ∧
    (∀ n, stepTimes n s = s) ∧ (s.Good → s.lastop = .executed .hlt)

/-- 60_exceptions R202, R203: the step that raises a fault changes the fault register and nothing else,
returns the record, and the record holds the step's instruction pointer and word. -/
def Obligations.FaultsArePrecise : Prop :=
  ∀ (s t : State) (r : FaultRecord), s.fault = none → step s = .next t → t.fault = some r →
    t = { s with fault := some r } ∧ r.ip = s.ip ∧ r.word = fetchedWord s ∧ stepStatus s t = .fault r

/-- 60_exceptions R200: with unbounded words no step raises WordOverflow, and with unbounded memory no
step raises AddressLimit. -/
def Obligations.UnboundedParametersNeverRaise : Prop :=
  ∀ (s t : State) (r : FaultRecord), s.fault = none → step s = .next t → t.fault = some r →
    (s.cfg.wordBits = none → r.cause ≠ .wordOverflow) ∧
    (s.cfg.memLimit = none → r.cause ≠ .addressLimit)

/-- 60_exceptions R200, column `info`: what the record of each cause holds. -/
def Obligations.FaultInfoByCause : Prop :=
  ∀ (s t : State) (r : FaultRecord), s.fault = none → step s = .next t → t.fault = some r →
    (r.cause = .invalidOpcode → ∃ w, r.word = some w ∧
      ((w < 0 ∧ r.info = none) ∨ (0 ≤ w ∧ r.info = some (w % 100)))) ∧
    (r.cause = .negativeAddress → ∃ a, r.info = some a ∧ a < 0) ∧
    (r.cause = .invalidOutputMode → r.info = none) ∧
    (r.cause = .invalidMode → r.info = none) ∧
    (r.cause = .wordOverflow → ∃ v, r.info = some v ∧ fits s.cfg v = false) ∧
    (r.cause = .addressLimit → ∃ a, r.info = some a ∧ 0 ≤ a ∧ admits s.cfg a.toNat = false)

/-- The exceptions listed with each instruction (40_arithmetic to 44_system): what executing a well-formed
instruction may raise after its decode; Halt raises nothing. -/
def Obligations.ExecutionFaultCauses : Prop :=
  ∀ (i : Instr) (s t : State) (r : FaultRecord), i.wellFormed = true → s.fault = none →
    exec i s = .next t → t.fault = some r →
    i ≠ .hlt ∧ (r.cause = .negativeAddress ∨ r.cause = .wordOverflow ∨ r.cause = .addressLimit)

/-- 10_state R27, 60_exceptions R200, R213: the numeric codes of `lastop`, of the causes and of the
statuses. -/
def Obligations.NumericCodes : Prop :=
  LastOp.code .none = 0 ∧ LastOp.code .suspended = 100 ∧
  [Kind.add, .mul, .inp, .out, .jt, .jf, .lt, .eq, .arb, .hlt].map (fun k => LastOp.code (.executed k)) =
    [1, 2, 3, 4, 5, 6, 7, 8, 9, 99] ∧
  [Cause.invalidOpcode, .negativeAddress, .invalidOutputMode, .invalidMode, .wordOverflow,
    .addressLimit].map causeCode = [1, 2, 3, 4, 5, 6] ∧
  (∀ (k : Kind) (r : FaultRecord), StepStatus.code (.executed k) = 0 ∧ StepStatus.code .suspended = 1 ∧
    StepStatus.code .halted = 2 ∧ StepStatus.code (.fault r) = 3)

/-! ### Operands -/

/-- 30_encoding R80: how an input operand resolves in each mode, and what it raises. -/
def Obligations.InputOperandByMode : Prop :=
  ∀ (s : State) (j : Nat),
    (∀ m, fits s.cfg (s.ip + j) = false → resolveIn s j m = .error ⟨.wordOverflow, some (s.ip + j)⟩) ∧
    (∀ m, fits s.cfg (s.ip + j) = true → s.ip + j < 0 →
      resolveIn s j m = .error ⟨.negativeAddress, some (s.ip + j)⟩) ∧
    (∀ n : Nat, fits s.cfg (s.ip + j) = true → s.ip + j = (n : Int) →
      (∀ m, admits s.cfg n = false → resolveIn s j m = .error ⟨.addressLimit, some (n : Int)⟩) ∧
      (admits s.cfg n = true →
        resolveIn s j .immediate = .ok (s.mem.read n) ∧
        (fits s.cfg (s.rb + s.mem.read n) = false →
          resolveIn s j .relative = .error ⟨.wordOverflow, some (s.rb + s.mem.read n)⟩) ∧
        (∀ (m : Mode) (x : Int), (m = .position ∧ x = s.mem.read n) ∨
            (m = .relative ∧ x = s.rb + s.mem.read n ∧ fits s.cfg x = true) →
          (x < 0 → resolveIn s j m = .error ⟨.negativeAddress, some x⟩) ∧
          (0 ≤ x → admits s.cfg x.toNat = false → resolveIn s j m = .error ⟨.addressLimit, some x⟩) ∧
          (0 ≤ x → admits s.cfg x.toNat = true → resolveIn s j m = .ok (s.mem.read x.toNat)))))

/-- 30_encoding R81: how an output operand resolves to an address, what it raises, and that Input takes
the fault of an illegal output address whatever its queue: it neither suspends nor consumes a value. -/
def Obligations.OutputOperandByMode : Prop :=
  (∀ (s : State) (j : Nat),
    (∀ m, fits s.cfg (s.ip + j) = false → resolveOut s j m = .error ⟨.wordOverflow, some (s.ip + j)⟩) ∧
    (∀ m, fits s.cfg (s.ip + j) = true → s.ip + j < 0 →
      resolveOut s j m = .error ⟨.negativeAddress, some (s.ip + j)⟩) ∧
    (∀ n : Nat, fits s.cfg (s.ip + j) = true → s.ip + j = (n : Int) →
      (∀ m, admits s.cfg n = false → resolveOut s j m = .error ⟨.addressLimit, some (n : Int)⟩) ∧
      (admits s.cfg n = true →
        (fits s.cfg (s.rb + s.mem.read n) = false →
          resolveOut s j .relative = .error ⟨.wordOverflow, some (s.rb + s.mem.read n)⟩) ∧
        (∀ (m : Mode) (x : Int), (m = .position ∧ x = s.mem.read n) ∨
            (m = .relative ∧ x = s.rb + s.mem.read n ∧ fits s.cfg x = true) →
          (x < 0 → resolveOut s j m = .error ⟨.negativeAddress, some x⟩) ∧
          (0 ≤ x → admits s.cfg x.toNat = false → resolveOut s j m = .error ⟨.addressLimit, some x⟩) ∧
          (0 ≤ x → admits s.cfg x.toNat = true → resolveOut s j m = .ok x.toNat))))) ∧
  (∀ (s : State) (m : Mode) (e : Trap), resolveOut s 1 m = .error e →
    exec (.inp m) s = .next { s with fault := some (faultRecord s e) })

/-- 30_encoding R83, 60_exceptions R205 items 5, 6 and 8: among the faults of an instruction the first in
parameter order is taken; then the result's, then the one of the new `ip`. Format F3 first, then
Output, AdjustBase and the jumps, then Output's and Input's `ip + 2` (OutputOperandByMode has Input's
operand, JumpsSetIp and AdjustBaseAddsOperand the sums of those). -/
def Obligations.FirstFaultDecides : Prop :=
  (∀ (s : State) (m1 m2 m3 : Mode) (i : Instr),
    (i = .add m1 m2 m3 ∨ i = .mul m1 m2 m3 ∨ i = .lt m1 m2 m3 ∨ i = .eq m1 m2 m3) →
    (∀ e, resolveIn s 1 m1 = .error e → exec i s = .next (s.takeFault e)) ∧
    (∀ a e, resolveIn s 1 m1 = .ok a → resolveIn s 2 m2 = .error e → exec i s = .next (s.takeFault e)) ∧
    (∀ a b e, resolveIn s 1 m1 = .ok a → resolveIn s 2 m2 = .ok b → resolveOut s 3 m3 = .error e →
      exec i s = .next (s.takeFault e)) ∧
    (∀ a b d, resolveIn s 1 m1 = .ok a → resolveIn s 2 m2 = .ok b → resolveOut s 3 m3 = .ok d →
      (i = .add m1 m2 m3 → fits s.cfg (a + b) = false →
        exec i s = .next (s.takeFault ⟨.wordOverflow, some (a + b)⟩)) ∧
      (i = .mul m1 m2 m3 → fits s.cfg (a * b) = false →
        exec i s = .next (s.takeFault ⟨.wordOverflow, some (a * b)⟩)) ∧
      (fits s.cfg (s.ip + 4) = false → (i = .add m1 m2 m3 → fits s.cfg (a + b) = true) →
        (i = .mul m1 m2 m3 → fits s.cfg (a * b) = true) →
        exec i s = .next (s.takeFault ⟨.wordOverflow, some (s.ip + 4)⟩)))) ∧
  (∀ (s : State) (m1 m2 : Mode) (e : Trap) (i : Instr),
    (i = .out m1 ∨ i = .arb m1 ∨ i = .jt m1 m2 ∨ i = .jf m1 m2) → resolveIn s 1 m1 = .error e →
    exec i s = .next (s.takeFault e)) ∧
  (∀ (s : State) (m1 m2 : Mode) (c : Int) (e : Trap) (i : Instr), (i = .jt m1 m2 ∨ i = .jf m1 m2) →
    resolveIn s 1 m1 = .ok c → resolveIn s 2 m2 = .error e → exec i s = .next (s.takeFault e)) ∧
  (∀ (s : State) (m1 : Mode) (a : Int), resolveIn s 1 m1 = .ok a → fits s.cfg (s.ip + 2) = false →
    exec (.out m1) s = .next (s.takeFault ⟨.wordOverflow, some (s.ip + 2)⟩)) ∧
  (∀ (s : State) (m1 : Mode) (d : Nat), resolveOut s 1 m1 = .ok d → s.inq ≠ [] →
    fits s.cfg (s.ip + 2) = false →
    exec (.inp m1) s = .next (s.takeFault ⟨.wordOverflow, some (s.ip + 2)⟩))

/-! ### What the instructions do -/

/-- 40_arithmetic R100, R101: Add and Multiply complete, writing the exact sum or product. -/
def Obligations.ArithmeticStoresExactResult : Prop :=
  ∀ (s : State) (m1 m2 m3 : Mode) (a b : Int) (d : Nat),
    resolveIn s 1 m1 = .ok a → resolveIn s 2 m2 = .ok b → resolveOut s 3 m3 = .ok d →
    fits s.cfg (s.ip + 4) = true →
    (fits s.cfg (a + b) = true → exec (.add m1 m2 m3) s = .next
      { s with mem := s.mem.write d (a + b), ip := s.ip + 4, lastop := .executed .add }) ∧
    (fits s.cfg (a * b) = true → exec (.mul m1 m2 m3) s = .next
      { s with mem := s.mem.write d (a * b), ip := s.ip + 4, lastop := .executed .mul })

/-- 43_compare R160 to R162: LessThan and Equals complete, writing exactly 1 or 0. -/
def Obligations.ComparisonStoresTruth : Prop :=
  ∀ (s : State) (m1 m2 m3 : Mode) (a b : Int) (d : Nat),
    resolveIn s 1 m1 = .ok a → resolveIn s 2 m2 = .ok b → resolveOut s 3 m3 = .ok d →
    fits s.cfg (s.ip + 4) = true →
    exec (.lt m1 m2 m3) s = .next
      { s with mem := s.mem.write d (if a < b then 1 else 0), ip := s.ip + 4, lastop := .executed .lt } ∧
    exec (.eq m1 m2 m3) s = .next
      { s with mem := s.mem.write d (if a = b then 1 else 0), ip := s.ip + 4, lastop := .executed .eq }

/-- 41_io R120: Input with a non-empty queue completes, moving the head of the queue to memory. -/
def Obligations.InputConsumesHead : Prop :=
  ∀ (s : State) (m1 : Mode) (d : Nat) (v : Int) (rest : List Int),
    resolveOut s 1 m1 = .ok d → s.inq = v :: rest → fits s.cfg (s.ip + 2) = true →
    exec (.inp m1) s = .next
      { s with mem := s.mem.write d v, inq := rest, ip := s.ip + 2, lastop := .executed .inp }

/-- 41_io R122: suspension changes `lastop` alone and returns SUSPENDED; it repeats while the queue is
empty, and once a value is queued the re-attempt completes the Input. The re-attempt's `ip + 2` is
representable. -/
def Obligations.SuspensionChangesLastopAlone : Prop :=
  ∀ (s : State) (m1 : Mode) (d : Nat), Running s → fetchDecode s = .ok (.inp m1) →
    resolveOut s 1 m1 = .ok d → s.inq = [] →
    callStep s = ({ s with lastop := .suspended }, .status .suspended) ∧
    (∀ n, stepTimes (n + 1) s = { s with lastop := .suspended }) ∧
    (∀ (v : Int) (rest : List Int), fits s.cfg (s.ip + 2) = true →
      callStep { s with lastop := .suspended, inq := v :: rest } =
        ({ s with mem := s.mem.write d v, inq := rest, ip := s.ip + 2, lastop := .executed .inp },
          .status (.executed .inp)))

/-- 41_io R121, R124, 60_exceptions R231: Output completes, appending its operand to the output log and
to the input queue of the pipe target, which may be this instance itself. -/
def Obligations.OutputAppendsAndForwards : Prop :=
  ∀ (s : State) (m1 : Mode) (a : Int), resolveIn s 1 m1 = .ok a → fits s.cfg (s.ip + 2) = true →
    exec (.out m1) s = .next
      { s with
        outlog := s.outlog ++ [a]
        inq := if s.pipe = some s.self then s.inq ++ [a] else s.inq
        peers := s.peers.map fun p =>
          if s.pipe = some p.1 ∧ p.1 ≠ s.self then (p.1, { p.2 with inq := p.2.inq ++ [a] }) else p
        ip := s.ip + 2
        lastop := .executed .out }

/-- 42_control R140, R141: the two jumps complete, taken or not; the path that falls through needs
`ip + 3` representable, the taken path nothing. -/
def Obligations.JumpsSetIp : Prop :=
  ∀ (s : State) (m1 m2 : Mode) (c g : Int), resolveIn s 1 m1 = .ok c → resolveIn s 2 m2 = .ok g →
    (c ≠ 0 → exec (.jt m1 m2) s = .next { s with ip := g, lastop := .executed .jt }) ∧
    (c = 0 → fits s.cfg (s.ip + 3) = true →
      exec (.jt m1 m2) s = .next { s with ip := s.ip + 3, lastop := .executed .jt }) ∧
    (c = 0 → exec (.jf m1 m2) s = .next { s with ip := g, lastop := .executed .jf }) ∧
    (c ≠ 0 → fits s.cfg (s.ip + 3) = true →
      exec (.jf m1 m2) s = .next { s with ip := s.ip + 3, lastop := .executed .jf }) ∧
    (c = 0 → fits s.cfg (s.ip + 3) = false →
      exec (.jt m1 m2) s = .next (s.takeFault ⟨.wordOverflow, some (s.ip + 3)⟩)) ∧
    (c ≠ 0 → fits s.cfg (s.ip + 3) = false →
      exec (.jf m1 m2) s = .next (s.takeFault ⟨.wordOverflow, some (s.ip + 3)⟩))

/-- 42_control R142: a jump to any target completes; a negative target faults at the next step's fetch
with no word; a target whose cell is 0 raises InvalidOpcode at the next step. -/
def Obligations.JumpTargetFaultsAtNextFetch : Prop :=
  ∀ (s : State) (m1 m2 : Mode) (k : Kind) (c g : Int), Running s →
    resolveIn s 1 m1 = .ok c → resolveIn s 2 m2 = .ok g →
    (fetchDecode s = .ok (.jt m1 m2) ∧ k = .jt ∧ c ≠ 0) ∨
      (fetchDecode s = .ok (.jf m1 m2) ∧ k = .jf ∧ c = 0) →
    callStep s = ({ s with ip := g, lastop := .executed k }, .status (.executed k)) ∧
    (g < 0 → step { s with ip := g, lastop := .executed k } = .next
      { s with
        ip := g
        lastop := .executed k
        fault := some ⟨.negativeAddress, g, none, some g⟩ }) ∧
    (∀ n : Nat, g = (n : Int) → admits s.cfg n = true → s.mem.read n = 0 →
      step { s with ip := g, lastop := .executed k } = .next
        { s with
          ip := g
          lastop := .executed k
          fault := some ⟨.invalidOpcode, g, some 0, some 0⟩ })

/-- 44_system R180: AdjustBase completes, adding the operand read with the old `rb`; a new `rb` that is
not representable is refused before the new `ip` is. -/
def Obligations.AdjustBaseAddsOperand : Prop :=
  ∀ (s : State) (m1 : Mode) (a : Int), resolveIn s 1 m1 = .ok a →
    (fits s.cfg (s.rb + a) = true → fits s.cfg (s.ip + 2) = true →
      exec (.arb m1) s = .next { s with rb := s.rb + a, ip := s.ip + 2, lastop := .executed .arb }) ∧
    (fits s.cfg (s.rb + a) = false →
      exec (.arb m1) s = .next (s.takeFault ⟨.wordOverflow, some (s.rb + a)⟩)) ∧
    (fits s.cfg (s.rb + a) = true → fits s.cfg (s.ip + 2) = false →
      exec (.arb m1) s = .next (s.takeFault ⟨.wordOverflow, some (s.ip + 2)⟩))

/-- 44_system R181, 60_exceptions R213: Halt completes in every state without advancing `ip`; its step
returns EXECUTED(HLT) and every later one HALTED. -/
def Obligations.HaltStopsWithoutAdvancing : Prop :=
  (∀ s : State, exec .hlt s = .next { s with halted := true, lastop := .executed .hlt }) ∧
  (∀ s : State, Running s → fetchDecode s = .ok .hlt →
    callStep s = ({ s with halted := true, lastop := .executed .hlt }, .status (.executed .hlt)) ∧
    (∀ n, stepTimes (n + 1) s = { s with halted := true, lastop := .executed .hlt }) ∧
    callStep { s with halted := true, lastop := .executed .hlt } =
      ({ s with halted := true, lastop := .executed .hlt }, .status .halted))

/-- 20_memory R63, R66, R67: a result stored over the next instruction's word is what the next step
fetches and decodes; the storing instruction still advances by its decoded length. -/
def Obligations.StoreIsFetchedNext : Prop :=
  ∀ (s : State) (m1 m2 m3 : Mode) (a b : Int) (d : Nat) (i : Instr), Running s →
    fetchDecode s = .ok (.add m1 m2 m3) → resolveIn s 1 m1 = .ok a → resolveIn s 2 m2 = .ok b →
    resolveOut s 3 m3 = .ok d → s.ip + 4 = (d : Int) → fits s.cfg (a + b) = true →
    fits s.cfg (s.ip + 4) = true → decode s.cfg (a + b) = .ok i →
    ∃ t, step s = .next t ∧ t.ip = (d : Int) ∧ fetchedWord t = some (a + b) ∧ step t = exec i t

/-! ### Frames -/

/-- What Add, Multiply, LessThan and Equals leave unchanged: all but the cell of the output address, `ip`
and `lastop`, or the fault register alone. -/
def Obligations.StoringFrame : Prop :=
  ∀ (s t : State) (m1 m2 m3 : Mode) (i : Instr),
    (i = .add m1 m2 m3 ∨ i = .mul m1 m2 m3 ∨ i = .lt m1 m2 m3 ∨ i = .eq m1 m2 m3) → exec i s = .next t →
    (t.rb = s.rb ∧ t.inq = s.inq ∧ t.outlog = s.outlog ∧ t.halted = s.halted ∧ t.pipe = s.pipe ∧
      t.self = s.self ∧ t.peers = s.peers ∧ t.cfg = s.cfg) ∧
    (∀ x : Nat, resolveOut s 3 m3 ≠ .ok x → t.mem.read x = s.mem.read x) ∧
    (t.fault = s.fault ∨ ∃ r, t = { s with fault := some r })

/-- What Input leaves unchanged: all but the cell of the output address, `ip`, the head of the queue and
`lastop`, or the fault register alone. -/
def Obligations.InputFrame : Prop :=
  ∀ (s t : State) (m1 : Mode), exec (.inp m1) s = .next t →
    (t.rb = s.rb ∧ t.outlog = s.outlog ∧ t.halted = s.halted ∧ t.pipe = s.pipe ∧ t.self = s.self ∧
      t.peers = s.peers ∧ t.cfg = s.cfg ∧ (t.inq = s.inq ∨ t.inq = s.inq.tail)) ∧
    (∀ x : Nat, resolveOut s 1 m1 ≠ .ok x → t.mem.read x = s.mem.read x) ∧
    (s.inq = [] → ∀ x : Nat, t.mem.read x = s.mem.read x) ∧
    (t.fault = s.fault ∨ ∃ r, t = { s with fault := some r })

/-- What Output, the jumps, AdjustBase and Halt leave unchanged. None stores to memory; `rb` changes by
AdjustBase alone, `halted` by Halt alone, the log, the queue and the peers by Output alone, and of these
the queue and the peers only through the pipe. -/
def Obligations.NonStoringFrame : Prop :=
  ∀ (s t : State) (i : Instr),
    ((∃ m1, i = .out m1) ∨ (∃ m1 m2, i = .jt m1 m2) ∨ (∃ m1 m2, i = .jf m1 m2) ∨ (∃ m1, i = .arb m1) ∨
      i = .hlt) → exec i s = .next t →
    (∀ x : Nat, t.mem.read x = s.mem.read x) ∧
    (t.pipe = s.pipe ∧ t.self = s.self ∧ t.cfg = s.cfg) ∧
    (i.kind ≠ .arb → t.rb = s.rb) ∧ (i.kind ≠ .hlt → t.halted = s.halted) ∧
    (i.kind = .hlt → t.ip = s.ip) ∧
    (i.kind ≠ .out → t.outlog = s.outlog ∧ t.inq = s.inq ∧ t.peers = s.peers) ∧
    (s.pipe = none → t.peers = s.peers) ∧ (s.pipe ≠ some s.self → t.inq = s.inq) ∧
    (t.fault = s.fault ∨ ∃ r, t = { s with fault := some r })

/-! ### Rules about every step -/

/-- 10_state R23, the whole table: how each outcome of a step changes `ip`. -/
def Obligations.StepMovesIpByTable : Prop :=
  ∀ s t : State, step s = .next t →
    match stepStatus s t with
    | .executed k =>
      (k = .add ∨ k = .mul ∨ k = .lt ∨ k = .eq → t.ip = s.ip + 4) ∧
      (k = .inp ∨ k = .out ∨ k = .arb → t.ip = s.ip + 2) ∧
      (k = .jt → ∃ m1 m2 c g, fetchDecode s = .ok (.jt m1 m2) ∧ resolveIn s 1 m1 = .ok c ∧
        resolveIn s 2 m2 = .ok g ∧ t.ip = if c ≠ 0 then g else s.ip + 3) ∧
      (k = .jf → ∃ m1 m2 c g, fetchDecode s = .ok (.jf m1 m2) ∧ resolveIn s 1 m1 = .ok c ∧
        resolveIn s 2 m2 = .ok g ∧ t.ip = if c = 0 then g else s.ip + 3) ∧
      (k = .hlt → t.ip = s.ip) ∧
      (k ≠ .jt → k ≠ .jf → k ≠ .hlt → t.ip = s.ip + 1 + k.inputs + k.outputs)
    | .suspended => t.ip = s.ip
    | .halted => t.ip = s.ip
    | .fault _ => t.ip = s.ip

/-- 10_state R27: `lastop` records the kind that executed, or the suspension of an Input with an empty
queue; a step that faults leaves it unchanged. -/
def Obligations.LastopRecordsOutcome : Prop :=
  ∀ (s t : State), s.fault = none → step s = .next t →
    (t.fault ≠ none → t.lastop = s.lastop) ∧
    (t.fault = none → s.halted = true → t.lastop = s.lastop) ∧
    (t.fault = none → s.halted = false → ∃ i, fetchDecode s = .ok i ∧
      ((i.kind ≠ .inp ∨ s.inq ≠ []) → t.lastop = .executed i.kind) ∧
      (i.kind = .inp → s.inq = [] → t.lastop = .suspended))

/-- 41_io R123, 10_state R31: a step leaves the input queue as it is, or removes its head to complete an
Input, or appends to its tail the value that an Output sends through a pipe into the instance itself. -/
def Obligations.QueueIsFirstInFirstOut : Prop :=
  ∀ s t : State, step s = .next t →
    t.inq = s.inq ∨ (t.lastop = .executed .inp ∧ ∃ v, s.inq = v :: t.inq) ∨
    (t.lastop = .executed .out ∧ s.pipe = some s.self ∧
      ∃ v, t.inq = s.inq ++ [v] ∧ t.outlog = s.outlog ++ [v])

/-- 41_io R124, R125: over any number of steps the pipe target's queue gains exactly the values the
output log gains, in the same order. -/
def Obligations.PipeKeepsOutputOrder : Prop :=
  ∀ (n : Nat) (s : State) (target : InstanceId) (m : Instance), s.pipe = some target →
    target ≠ s.self → s.instanceAt target = some m →
    ∃ vs, (stepTimes n s).outlog = s.outlog ++ vs ∧
      (stepTimes n s).instanceAt target = some { m with inq := m.inq ++ vs }

/-- 10_state R32, 60_exceptions R218: no step reads the output log, so whatever the host made of it the
step does the same and appends the same. -/
def Obligations.OutputLogIsNeverRead : Prop :=
  ∀ (s : State) (log : List Int),
    callStep { s with outlog := log } =
      ({ (callStep s).1 with outlog := log ++ (callStep s).1.outlog.drop s.outlog.length },
        (callStep s).2) ∧
    s.outlog <+: (callStep s).1.outlog

/-- 20_memory R62, 60_exceptions R227: a step changes no other instance but the pipe target, and of that
one only the tail of its input queue, by the value it logged. -/
def Obligations.StepTouchesOnlyPipeTarget : Prop :=
  ∀ (s t : State) (other : InstanceId), step s = .next t → other ≠ s.self →
    t.self = s.self ∧
    (t.instanceAt other = s.instanceAt other ∨
      (s.pipe = some other ∧ ∃ v, t.outlog = s.outlog ++ [v] ∧
        t.instanceAt other = (s.instanceAt other).map fun m => { m with inq := m.inq ++ [v] }))

/-! ### Invariants -/

/-- 70_reset R254 and the parameters' defaults: the state after reset is good. -/
def Obligations.ResetIsGood : Prop := State.reset.Good

/-- 00_scope R4, 20_memory R53, 10_state R26 to R29: every step keeps the memory canonical, every stored
value in the value domain, every cell below the limit, and the status fields in step with one another,
in every instance of the group. -/
def Obligations.StepKeepsGood : Prop :=
  ∀ s t : State, s.Good → step s = .next t → t.Good

/-- 60_exceptions R224: so does every action of the host, given that a snapshot it imports is one that an
instance may have given. -/
def Obligations.HostActionsKeepGood : Prop :=
  ∀ (s : State) (a : Action), s.Good →
    (∀ target snap, a = .call target (.importState snap) → snap.Good s.cfg) → (act s a).1.Good

/-- 20_memory R51 to R53: a cell written holds the value and every other cell what it held; memories in
canonical form that read the same everywhere are the same, so a cell written with 0 cannot be told from
a cell never written; and a write keeps the form. -/
def Obligations.CanonicalMemoryIsItsReads : Prop :=
  (∀ (m : Memory) (a b : Nat) (v : Int), (m.write a v).read b = if b = a then v else m.read b) ∧
  (∀ m m' : Memory, m.wf = true → m'.wf = true → (∀ a : Nat, m.read a = m'.read a) → m = m') ∧
  (∀ (m : Memory) (a : Nat), m.wf = true → m.read a = 0 → m.write a 0 = m) ∧
  (∀ (m : Memory) (a : Nat) (v : Int), m.wf = true → (m.write a v).wf = true)

/-! ### The host interface -/

/-- 70_reset R250: `construct` makes the state of the rule, cell by cell, and refuses exactly the programs
and inputs the rule refuses. -/
def Obligations.ConstructMeetsReset : Prop :=
  ∀ (c : Config) (program inputs : List Int),
    (construct c program inputs = none ↔
      (∃ v ∈ program, fits c v = false) ∨ (∃ v ∈ inputs, fits c v = false) ∨
        ∃ limit, c.memLimit = some limit ∧ limit < program.length) ∧
    (∀ m, construct c program inputs = some m →
      (∀ a : Nat, m.mem.read a = program.getD a 0) ∧ m.ip = 0 ∧ m.rb = 0 ∧ m.inq = inputs ∧
        m.outlog = [] ∧ m.halted = false ∧ m.lastop = .none ∧ m.pipe = none ∧ m.fault = none)

/-- 70_reset R257: the empty program is legal, and its first step raises InvalidOpcode on the word 0 at
address 0, under every permitted value of the parameters. -/
def Obligations.EmptyProgramFaults : Prop :=
  ∀ c : Config, configValid c = true →
    construct c [] [] = some Instance.reset ∧
    step { State.reset with cfg := c } = .next
      { State.reset with cfg := c, fault := some ⟨.invalidOpcode, 0, some 0, some 0⟩ }

/-- 60_exceptions R216: `append_input` appends in every state, and refuses exactly the values that are not
representable, with no change of state. -/
def Obligations.AppendInputIsLegalInEveryState : Prop :=
  ∀ (s : State) (v : Int),
    (fits s.cfg v = true → callHere s (.appendInput v) = ({ s with inq := s.inq ++ [v] }, .done)) ∧
    (fits s.cfg v = false → callHere s (.appendInput v) = (s, .refused))

/-- 60_exceptions R218: `drain_output` removes and returns the oldest entries, `truncate_output` removes
the newest, and a count beyond the log is refused with no change. -/
def Obligations.DrainOldestTruncateNewest : Prop :=
  ∀ (s : State) (old new : List Int), s.outlog = old ++ new →
    callHere s (.drainOutput old.length) = ({ s with outlog := new }, .values old) ∧
    callHere s (.truncateOutput new.length) = ({ s with outlog := old }, .done) ∧
    (∀ k, s.outlog.length < k →
      callHere s (.drainOutput k) = (s, .refused) ∧ callHere s (.truncateOutput k) = (s, .refused))

/-- 60_exceptions R215: what peek returns names what the next step does: a kind is executed, suspends (an
Input) or faults on its modes or operands; INVALID faults at fetch or on its opcode. -/
def Obligations.PeekForetellsStep : Prop :=
  ∀ s t : State, step s = .next t →
    (peek s = .faulted ↔ ∃ r, s.fault = some r ∧ stepStatus s t = .fault r) ∧
    (peek s = .halted ↔ stepStatus s t = .halted) ∧
    (peek s = .invalid → ∃ r, stepStatus s t = .fault r ∧
      (r.cause = .negativeAddress ∨ r.cause = .addressLimit ∨ r.cause = .invalidOpcode)) ∧
    (∀ k, peek s = .kind k → stepStatus s t = .executed k ∨ (k = .inp ∧ stepStatus s t = .suspended) ∨
      ∃ r, stepStatus s t = .fault r ∧ r.cause ≠ .invalidOpcode)

/-- 60_exceptions R221, R222: a snapshot restored into an instance and followed by `n` steps gives the
same snapshot as `n` steps of the original; what the two do not share (the pipe, the identity, the
peers) has no part in it, but for whether each pipes into itself. -/
def Obligations.SnapshotRoundTrip : Prop :=
  ∀ (n : Nat) (s u : State), u.cfg = s.cfg → (u.pipe = some u.self ↔ s.pipe = some s.self) →
    (stepTimes n (u.restore s.toInstance.snapshot)).toInstance.snapshot =
      (stepTimes n s).toInstance.snapshot

/-- 60_exceptions R221, R222: `export` changes nothing and returns the snapshot; `import` replaces every
field but the pipe, whatever the state, and an `export` after it returns the same snapshot. -/
def Obligations.ImportReplacesAllButPipe : Prop :=
  ∀ (s : State) (snap : Snapshot),
    callHere s .exportState =
      (s, .snapshot ⟨s.mem, s.ip, s.rb, s.inq, s.outlog, s.halted, s.lastop, s.fault⟩) ∧
    callHere s (.importState snap) =
      ({ s with
          mem := snap.mem
          ip := snap.ip
          rb := snap.rb
          inq := snap.inq
          outlog := snap.outlog
          halted := snap.halted
          lastop := snap.lastop
          fault := snap.fault }, .done) ∧
    (callHere (callHere s (.importState snap)).1 .exportState).2 = .snapshot snap

/-- 60_exceptions R223: `construct` adds an instance in the reset state, under a new identity, and touches
no other. That an identity in use is refused is the model's choice (log entry 11). -/
def Obligations.ConstructAddsInstance : Prop :=
  ∀ (s : State) (target : InstanceId) (program inputs : List Int),
    (∀ m, s.knows target = false → construct s.cfg program inputs = some m →
      ∃ u, act s (.construct target program inputs) = (u, .done) ∧ u.self = s.self ∧ u.cfg = s.cfg ∧
        u.instanceAt target = some m ∧ ∀ id, id ≠ target → u.instanceAt id = s.instanceAt id) ∧
    (s.knows target = true ∨ construct s.cfg program inputs = none →
      act s (.construct target program inputs) = (s, .refused))

/-- 60_exceptions R220: the pipe of an instance is set or replaced, to itself too, and every later Output
is forwarded to it. That an identity no instance has is refused is the model's choice (log entry 4). -/
def Obligations.PipeIntoRedirectsLaterOutputs : Prop :=
  ∀ (s : State) (other : InstanceId),
    (s.knows other = true → callHere s (.pipeInto other) = ({ s with pipe := some other }, .done) ∧
      ∀ (m1 : Mode) (a : Int) (m : Instance), other ≠ s.self → s.instanceAt other = some m →
        resolveIn s 1 m1 = .ok a → fits s.cfg (s.ip + 2) = true →
        ∃ t, exec (.out m1) (callHere s (.pipeInto other)).1 = .next t ∧
          t.instanceAt other = some { m with inq := m.inq ++ [a] }) ∧
    (s.knows other = false → callHere s (.pipeInto other) = (s, .refused)) ∧ s.knows s.self = true

/-- 60_exceptions R226 to R228: giving the turn to an instance changes no instance, and is possible
exactly for the instances of the group. -/
def Obligations.TurnChangesNoInstance : Prop :=
  ∀ (s : State) (target : InstanceId),
    (s.focus target = none ↔ s.instanceAt target = none) ∧
    (∀ u, s.focus target = some u →
      u.self = target ∧ u.cfg = s.cfg ∧ ∀ id, u.instanceAt id = s.instanceAt id)

/-- 60_exceptions R227, R228: the order in which two instances step is of no consequence, where neither
pipes into the other and they do not pipe into the same one. -/
def Obligations.IndependentStepsCommute : Prop :=
  ∀ (s : State) (a b : InstanceId) (ma mb : Instance), a ≠ b →
    s.instanceAt a = some ma → s.instanceAt b = some mb →
    ma.pipe ≠ some b → mb.pipe ≠ some a → (ma.pipe = none ∨ ma.pipe ≠ mb.pipe) →
    ∀ id, (actAll s [.call a .step, .call b .step]).instanceAt id =
      (actAll s [.call b .step, .call a .step]).instanceAt id

/-- 70_reset R261: an instance is waiting exactly when its next step returns SUSPENDED, halted exactly
when it returns HALTED, and faulted exactly when a fault is recorded. -/
def Obligations.WaitingExactlyWhenStepSuspends : Prop :=
  ∀ s t : State, step s = .next t →
    (runState s = .waiting ↔ stepStatus s t = .suspended) ∧
    (runState s = .halted ↔ stepStatus s t = .halted) ∧
    (runState s = .faulted ↔ s.fault ≠ none) ∧
    (runState s = .runnable ↔ Running s ∧ stepStatus s t ≠ .suspended)

/-- 70_reset R261, R262, as the model reads them: what ending, success, failure and being stuck mean for the
run of any list of instances; every ended run is one of the three, success excluding the others; and an
ended run stays as it ended under every schedule of steps of its instances, which change at most the
`lastop` of a waiting one: the outcomes and the observable results are the same. R262 speaks of one
instance or a set joined by pipes, and of a waiting instance that nothing will feed. That a run ranges
over any list of identities, is stuck exactly if it has ended with one waiting, and has failed as soon
as one is faulted is the model's reading (DEDUCED, log entry 16). -/
def Obligations.EndedRunStaysEnded : Prop :=
  (∀ (s : State) (ids : List InstanceId),
    (runEnded s ids = true ↔ ∀ id ∈ ids, s.outcomeOf id = some .halted ∨ s.outcomeOf id = some .faulted ∨
      s.outcomeOf id = some .waiting) ∧
    (runSucceeded s ids = true ↔ ∀ id ∈ ids, s.outcomeOf id = some .halted) ∧
    (runFailed s ids = true ↔ ∃ id ∈ ids, s.outcomeOf id = some .faulted) ∧
    (runStuck s ids = true ↔ runEnded s ids = true ∧ ∃ id ∈ ids, s.outcomeOf id = some .waiting) ∧
    (runEnded s ids = true →
      runSucceeded s ids = true ∨ runFailed s ids = true ∨ runStuck s ids = true) ∧
    (runSucceeded s ids = true →
      runEnded s ids = true ∧ runFailed s ids = false ∧ runStuck s ids = false)) ∧
  (∀ (s t : State) (ids schedule : List InstanceId), runEnded s ids = true →
    (∀ id ∈ schedule, id ∈ ids) → t = stepAll s schedule →
    (∀ id ∈ ids, t.outcomeOf id = s.outcomeOf id) ∧ runResults t ids = runResults s ids ∧
    ∀ (id : InstanceId) (m : Instance), s.instanceAt id = some m →
      ∃ m', t.instanceAt id = some m' ∧ (m' = m ∨ (id ∈ ids ∧ m' = { m with lastop := .suspended })))

/-- 70_reset R255: the parser accepts exactly the texts of the grammar, with the integers they write, and
the loader refuses in addition exactly the values that are not representable. -/
def Obligations.ParserMeetsGrammar : Prop :=
  (∀ (text : List Char) (program : List Int),
    parseProgram text = some program ↔ IsProgramText text program) ∧
  (∀ (c : Config) (text : List Char) (program : List Int),
    loadProgram c text = some program ↔
      IsProgramText text program ∧ ∀ v ∈ program, fits c v = true)

/-- 30_encoding R70, R84, R88: the words of a line that is an instruction or a pseudo-instruction are the
encoding of the instruction of the line's kind with the modes of its operand forms, which the decoder
reads back, and the operands' values, in order; such a line is refused only for a wrong count of
operands, an immediate output or an undefined label; `.word` writes its values; and a label is the
address of the next word. -/
def Obligations.AssembledLineDecodes : Prop :=
  (∀ (c : Config) (labels : List (String × Nat)) (b : AsmBody) (ws : List Int),
    b.words labels = some ws → (∀ vs, b ≠ .word vs) →
    ∃ k ops i ps, b.expand = .core k ops ∧ ws = encode i :: ps ∧ i.kind = k ∧
      i.modes = ops.map AsmOperand.mode ∧ ops.map (AsmOperand.resolve labels) = ps.map some ∧
      i.wellFormed = true ∧ decode c (encode i) = .ok i ∧ ps.length = k.arity ∧ ws.length = b.size) ∧
  (∀ (labels : List (String × Nat)) (b : AsmBody) (k : Kind) (ops : List AsmOperand) (ps : List Int),
    b.expand = .core k ops → ops.length = k.arity →
    (k.outputs = 1 → ∀ v, ops.getLast? ≠ some (.immediate v)) →
    ops.map (AsmOperand.resolve labels) = ps.map some → ∃ w, b.words labels = some (w :: ps)) ∧
  (∀ (labels : List (String × Nat)) (vs : List AsmValue) (ws : List Int),
    (AsmBody.word vs).words labels = some ws ↔ vs.map (AsmValue.resolve labels) = ws.map some) ∧
  (∀ (before after : List AsmLine) (line : AsmLine) (name : String), line.label = some name →
    (∀ l ∈ before, l.label ≠ some name) →
    (labelsFrom 0 (before ++ line :: after)).lookup name = some (before.map AsmLine.size).sum) ∧
  (∀ (v : AsmValue) (x : Int) (labels : List (String × Nat)), v.resolve labels = some x →
    (AsmOperand.position v).resolve labels = some x ∧ (AsmOperand.immediate v).resolve labels = some x ∧
    (AsmOperand.relative false v).resolve labels = some x ∧
    (AsmOperand.relative true v).resolve labels = some (-x)) ∧
  (∀ v : AsmValue, (AsmOperand.position v).mode = .position ∧ (AsmOperand.immediate v).mode = .immediate ∧
    ∀ minus, (AsmOperand.relative minus v).mode = .relative)

/-- 30_encoding R89: the effect the table gives each pseudo-instruction, for the instruction that it
expands to with the immediate parameter word that the expansion writes. -/
def Obligations.PseudoInstructionsDoAsTabled : Prop :=
  (∀ (s : State) (m1 m3 : Mode) (a : Int) (d : Nat), resolveIn s 1 m1 = .ok a →
    resolveOut s 3 m3 = .ok d → fits s.cfg (s.ip + 4) = true →
    (paramWord s 2 = .ok 0 → fits s.cfg a = true → exec (.add m1 .immediate m3) s = .next
      { s with mem := s.mem.write d a, ip := s.ip + 4, lastop := .executed .add }) ∧
    (paramWord s 2 = .ok (-1) → fits s.cfg (-a) = true → exec (.mul m1 .immediate m3) s = .next
      { s with mem := s.mem.write d (-a), ip := s.ip + 4, lastop := .executed .mul })) ∧
  (∀ (s : State) (m2 : Mode) (g : Int), paramWord s 1 = .ok 1 → resolveIn s 2 m2 = .ok g →
    exec (.jt .immediate m2) s = .next { s with ip := g, lastop := .executed .jt }) ∧
  (∀ s : State, paramWord s 1 = .ok 0 → fits s.cfg s.rb = true → fits s.cfg (s.ip + 2) = true →
    exec (.arb .immediate) s = .next { s with ip := s.ip + 2, lastop := .executed .arb }) ∧
  (∀ src dst c t : AsmOperand,
    (AsmBody.mov src dst).expand = .core .add [src, .immediate (.number 0), dst] ∧
    (AsmBody.neg src dst).expand = .core .mul [src, .immediate (.number (-1)), dst] ∧
    (AsmBody.jmp t).expand = .core .jt [.immediate (.number 1), t] ∧
    (AsmBody.jnz c t).expand = .core .jt [c, t] ∧ (AsmBody.jz c t).expand = .core .jf [c, t] ∧
    AsmBody.nop.expand = .core .arb [.immediate (.number 0)])
end

