-- ==== Sys2Proof/Laws/Memory.lean ====
section
/-! SUPPORT. Lists sorted by key, and memory: a read after a write, and the canonical form, which every
memory operation keeps. -/

namespace Sys2Proof.Machine

section Keyed
variable {α : Type}

/-! ### Lookup -/

@[simp] theorem findKey_nil (a : Nat) : findKey ([] : List (Nat × α)) a = none := rfl

theorem findKey_cons (k : Nat) (v : α) (l : List (Nat × α)) (a : Nat) :
    findKey ((k, v) :: l) a = if k = a then some v else findKey l a := rfl

theorem findKey_dropKey (l : List (Nat × α)) (a b : Nat) :
    findKey (dropKey l a) b = if b = a then none else findKey l b := by
  unfold dropKey
  induction l with
  | nil => simp
  | cons e l ih =>
    obtain ⟨k, v⟩ := e
    by_cases hk : k = a
    · subst hk
      rw [List.filter_cons_of_neg (by simp), ih, findKey_cons]
      split <;> simp_all [eq_comm]
    · rw [List.filter_cons_of_pos (by simpa using hk), findKey_cons, findKey_cons, ih]
      grind

theorem findKey_placeKey (l : List (Nat × α)) (a : Nat) (v : α) (b : Nat)
    (h : findKey l a = none) : findKey (placeKey l a v) b = if b = a then some v else findKey l b := by
  induction l with
  | nil => simp [placeKey, findKey_cons, eq_comm]
  | cons e l ih =>
    obtain ⟨k, w⟩ := e
    have hk : k ≠ a := by
      intro hk
      simp [findKey_cons, hk] at h
    rw [findKey_cons, if_neg hk] at h
    unfold placeKey
    split
    · simp [findKey_cons, eq_comm]
    · rw [findKey_cons, findKey_cons, ih h]
      grind

/-- What a list sorted by key holds after an entry is put. -/
theorem findKey_putKey (l : List (Nat × α)) (a : Nat) (v : α) (b : Nat) :
    findKey (putKey l a v) b = if b = a then some v else findKey l b := by
  unfold putKey
  rw [findKey_placeKey _ _ _ _ (by simp [findKey_dropKey]), findKey_dropKey]
  split <;> rfl

/-- A map of the values that keeps every key. -/
theorem findKey_map (l : List (Nat × α)) (f : Nat → α → α) (a : Nat) :
    findKey (l.map fun e => (e.1, f e.1 e.2)) a = (findKey l a).map (f a) := by
  induction l with
  | nil => rfl
  | cons e l ih =>
    obtain ⟨k, v⟩ := e
    simp only [List.map_cons, findKey_cons, ih]
    split
    · next h => subst h; rfl
    · rfl

/-- An entry found is an entry of the list. -/
theorem mem_of_findKey {l : List (Nat × α)} {a : Nat} {v : α} (h : findKey l a = some v) :
    (a, v) ∈ l := by
  induction l with
  | nil => simp at h
  | cons e l ih =>
    obtain ⟨k, w⟩ := e
    rw [findKey_cons] at h
    split at h
    · next hk => cases h; simp [hk]
    · exact List.mem_cons_of_mem _ (ih h)

/-- What a put list holds is the new entry or an old one. -/
theorem mem_putKey {l : List (Nat × α)} {a : Nat} {v : α} {e : Nat × α} (h : e ∈ putKey l a v) :
    e = (a, v) ∨ e ∈ l := by
  have place : ∀ l : List (Nat × α), e ∈ placeKey l a v → e = (a, v) ∨ e ∈ l := by
    intro l
    induction l with
    | nil => simp [placeKey]
    | cons x l ih =>
      obtain ⟨k, w⟩ := x
      unfold placeKey
      split
      · simp
      · intro h
        rcases List.mem_cons.1 h with h | h
        · simp [h]
        · rcases ih h with h | h <;> simp [h]
  exact (place _ h).imp id fun h => (List.mem_filter.1 h).1

/-- What is left after a drop was there before. -/
theorem mem_dropKey {l : List (Nat × α)} {a : Nat} {e : Nat × α} (h : e ∈ dropKey l a) : e ∈ l :=
  (List.mem_filter.1 h).1

/-! ### Rising keys -/

theorem keysRise_mono {lo lo' : Nat} (hle : lo' ≤ lo) :
    ∀ {l : List (Nat × α)}, keysRise lo l = true → keysRise lo' l = true
  | [], _ => rfl
  | (k, v) :: l, h => by
    simp only [keysRise, Bool.and_eq_true, decide_eq_true_eq] at h ⊢
    exact ⟨by omega, h.2⟩

theorem keysRise_dropKey (l : List (Nat × α)) (a lo : Nat) (h : keysRise lo l = true) :
    keysRise lo (dropKey l a) = true := by
  unfold dropKey
  induction l generalizing lo with
  | nil => rfl
  | cons e l ih =>
    obtain ⟨k, v⟩ := e
    simp only [keysRise, Bool.and_eq_true, decide_eq_true_eq] at h
    by_cases hk : k = a
    · rw [List.filter_cons_of_neg (by simp [hk])]
      exact keysRise_mono (by omega) (ih _ h.2)
    · rw [List.filter_cons_of_pos (by simpa using hk)]
      simp [keysRise, h.1, ih _ h.2]

theorem keysRise_placeKey (l : List (Nat × α)) (a : Nat) (v : α) (lo : Nat)
    (h : keysRise lo l = true) (hlo : lo ≤ a) (hne : ∀ e ∈ l, e.1 ≠ a) :
    keysRise lo (placeKey l a v) = true := by
  induction l generalizing lo with
  | nil => simp [placeKey, keysRise, hlo]
  | cons e l ih =>
    obtain ⟨k, w⟩ := e
    simp only [keysRise, Bool.and_eq_true, decide_eq_true_eq] at h
    have hk : k ≠ a := hne (k, w) (by simp)
    unfold placeKey
    split
    · next hak => simp [keysRise, hlo, h.2]; omega
    · next hak =>
      simp only [keysRise, h.1, decide_true, Bool.true_and]
      exact ih _ h.2 (by omega) fun e he => hne e (List.mem_cons_of_mem _ he)

theorem keysRise_putKey (l : List (Nat × α)) (a : Nat) (v : α) (lo : Nat) (h : keysRise lo l = true)
    (hlo : lo ≤ a) : keysRise lo (putKey l a v) = true :=
  keysRise_placeKey _ _ _ _ (keysRise_dropKey _ _ _ h) hlo fun e he => by
    simpa using (List.mem_filter.1 he).2

/-- A map that keeps every key keeps the order. -/
theorem keysRise_map (l : List (Nat × α)) (f : Nat × α → Nat × α) (hf : ∀ e, (f e).1 = e.1) (lo : Nat) :
    keysRise lo (l.map f) = keysRise lo l := by
  induction l generalizing lo with
  | nil => rfl
  | cons e l ih =>
    obtain ⟨k, v⟩ := e
    have hk := hf (k, v)
    rw [List.map_cons]
    rcases hfe : f (k, v) with ⟨x, y⟩
    rw [hfe] at hk
    simp only at hk
    subst hk
    simp [keysRise, ih]

/-- Below the bound nothing is listed. -/
theorem findKey_below {lo a : Nat} (ha : a < lo) :
    ∀ {l : List (Nat × α)}, keysRise lo l = true → findKey l a = none
  | [], _ => rfl
  | (k, v) :: l, h => by
    simp only [keysRise, Bool.and_eq_true, decide_eq_true_eq] at h
    rw [findKey_cons, if_neg (by omega)]
    exact findKey_below (by omega) h.2

end Keyed

/-! ### Memory -/

@[simp] theorem Memory.read_nil (a : Nat) : Memory.read [] a = 0 := rfl

/-- A read after a write: the cell written holds the value, every other cell what it held. -/
theorem Memory.read_write (m : Memory) (a : Nat) (v : Int) (b : Nat) :
    (m.write a v).read b = if b = a then v else m.read b := by
  unfold Memory.write Memory.read
  by_cases hv : v = 0
  · rw [if_pos hv, findKey_dropKey]
    split <;> simp [hv]
  · rw [if_neg hv, findKey_putKey]
    split <;> simp

@[simp] theorem Memory.read_write_same (m : Memory) (a : Nat) (v : Int) :
    (m.write a v).read a = v := by simp [Memory.read_write]

theorem Memory.read_write_other (m : Memory) {a b : Nat} (v : Int) (h : b ≠ a) :
    (m.write a v).read b = m.read b := by simp [Memory.read_write, h]

theorem Memory.wf_iff (m : Memory) :
    m.wf = true ↔ keysRise 0 m = true ∧ ∀ e ∈ m, e.2 ≠ 0 := by
  simp [Memory.wf, List.all_eq_true]

/-- A cell listed after a write is the new one, not 0, or was listed before. -/
theorem Memory.mem_write {m : Memory} {a : Nat} {v : Int} {e : Nat × Int} (h : e ∈ m.write a v) :
    (e = (a, v) ∧ v ≠ 0) ∨ e ∈ m := by
  unfold Memory.write at h
  split at h
  · exact .inr (mem_dropKey h)
  · next hv => exact (mem_putKey h).imp (fun h => ⟨h, hv⟩) id

/-- A write keeps the canonical form. -/
theorem Memory.wf_write (m : Memory) (a : Nat) (v : Int) (h : m.wf = true) :
    (m.write a v).wf = true := by
  rw [Memory.wf_iff] at h ⊢
  refine ⟨?_, fun e he => ?_⟩
  · unfold Memory.write
    split
    · exact keysRise_dropKey _ _ _ h.1
    · exact keysRise_putKey _ _ _ _ h.1 (Nat.zero_le _)
  · rcases Memory.mem_write he with ⟨he, hv⟩ | he
    · simpa [he] using hv
    · exact h.2 e he

theorem Memory.keysRise_imageFrom (p : List Int) (a : Nat) :
    keysRise a (Memory.imageFrom a p) = true := by
  induction p generalizing a with
  | nil => rfl
  | cons x p ih =>
    unfold Memory.imageFrom
    split
    · exact keysRise_mono (Nat.le_succ a) (ih _)
    · simp [keysRise, ih]

/-- A cell of an image holds a non-zero word of the program, at an address inside it. -/
theorem Memory.mem_imageFrom (p : List Int) (a : Nat) (e : Nat × Int)
    (h : e ∈ Memory.imageFrom a p) : e.2 ≠ 0 ∧ e.2 ∈ p ∧ a ≤ e.1 ∧ e.1 < a + p.length := by
  induction p generalizing a with
  | nil => simp [Memory.imageFrom] at h
  | cons x p ih =>
    unfold Memory.imageFrom at h
    split at h
    · have := ih _ h
      simp only [List.mem_cons, List.length_cons]
      refine ⟨this.1, .inr this.2.1, ?_, ?_⟩ <;> omega
    · next hx =>
      rcases List.mem_cons.1 h with h | h
      · subst h; simp [hx]
      · have := ih _ h
        simp only [List.mem_cons, List.length_cons]
        refine ⟨this.1, .inr this.2.1, ?_, ?_⟩ <;> omega

/-- A program image is canonical. -/
theorem Memory.wf_image (p : List Int) : (Memory.image p).wf = true := by
  rw [Memory.wf_iff]
  exact ⟨keysRise_mono (Nat.zero_le _) (Memory.keysRise_imageFrom p 0),
    fun e he => (Memory.mem_imageFrom p 0 e he).1⟩

/-- The memory after reset is canonical. -/
theorem State.reset_memory_wf : State.reset.mem.wf = true := rfl

end Sys2Proof.Machine
end

