-- ==== Sys2Proof/Laws/Checks.lean ====
section
/-! SUPPORT. The checks a step makes: for each, when it answers a value, when it raises, and which parts
of the state it reads. -/

namespace Sys2Proof.Machine

/-! ### Sequences of checks -/

theorem bind_ok_iff {α β : Type} (x : Except Trap α) (f : α → Except Trap β) (b : β) :
    (x >>= f) = .ok b ↔ ∃ a, x = .ok a ∧ f a = .ok b := by
  cases x <;> simp [bind, Except.bind]

theorem bind_error_iff {α β : Type} (x : Except Trap α) (f : α → Except Trap β) (t : Trap) :
    (x >>= f) = .error t ↔ x = .error t ∨ ∃ a, x = .ok a ∧ f a = .error t := by
  cases x <;> simp [bind, Except.bind]

@[simp] theorem ok_bind {α β : Type} (a : α) (f : α → Except Trap β) :
    ((.ok a : Except Trap α) >>= f) = f a := rfl

@[simp] theorem error_bind {α β : Type} (t : Trap) (f : α → Except Trap β) :
    ((.error t : Except Trap α) >>= f) = .error t := rfl

@[simp] theorem pure_eq_ok {α : Type} (a : α) : (pure a : Except Trap α) = .ok a := rfl

/-! ### Representability and addresses -/

@[simp] theorem rep_ok_iff (c : Config) (v w : Int) : rep c v = .ok w ↔ fits c v = true ∧ w = v := by
  unfold rep; grind

@[simp] theorem rep_error_iff (c : Config) (v : Int) (t : Trap) :
    rep c v = .error t ↔ fits c v = false ∧ t = ⟨.wordOverflow, some v⟩ := by
  unfold rep; grind

theorem rep_of_fits {c : Config} {v : Int} (h : fits c v = true) : rep c v = .ok v := by simp [h]

theorem checkAddress_ok_iff (c : Config) (a : Int) (n : Nat) :
    checkAddress c a = .ok n ↔ a = (n : Int) ∧ admits c n = true := by
  unfold checkAddress
  rcases lt_or_ge a 0 with h | h
  · rw [if_pos h]
    simp only [reduceCtorEq, false_iff, not_and]
    intro ha
    exact absurd h (by simp [ha])
  · obtain ⟨k, rfl⟩ := Int.eq_ofNat_of_zero_le h
    rw [if_neg (by simp)]
    simp only [Int.toNat_natCast, Int.natCast_inj]
    grind

theorem checkAddress_error_iff (c : Config) (a : Int) (t : Trap) :
    checkAddress c a = .error t ↔
      (a < 0 ∧ t = ⟨.negativeAddress, some a⟩) ∨
        (0 ≤ a ∧ admits c a.toNat = false ∧ t = ⟨.addressLimit, some a⟩) := by
  unfold checkAddress
  grind

theorem memRead_ok_iff (s : State) (a v : Int) :
    memRead s a = .ok v ↔ ∃ n, checkAddress s.cfg a = .ok n ∧ s.mem.read n = v := by
  simp [memRead, bind_ok_iff]

theorem memRead_error_iff (s : State) (a : Int) (t : Trap) :
    memRead s a = .error t ↔ checkAddress s.cfg a = .error t := by
  simp [memRead, bind_error_iff]

/-- A word that was fetched is the word of the record (60_exceptions R201). -/
theorem fetchedWord_of_read {s : State} {w : Int} (h : memRead s s.ip = .ok w) :
    fetchedWord s = some w := by simp [fetchedWord, h, Except.toOption]

theorem fetchedWord_of_error {s : State} {t : Trap} (h : memRead s s.ip = .error t) :
    fetchedWord s = none := by simp [fetchedWord, h, Except.toOption]

/-! ### What the checks read -/

theorem memRead_congr {s u : State} (hm : u.mem = s.mem) (hc : u.cfg = s.cfg) (a : Int) :
    memRead u a = memRead s a := by simp [memRead, hm, hc]

theorem paramWord_congr {s u : State} (hm : u.mem = s.mem) (hc : u.cfg = s.cfg) (hi : u.ip = s.ip)
    (j : Nat) : paramWord u j = paramWord s j := by
  simp only [paramWord, hc, hi, memRead_congr hm hc]

theorem resolveIn_congr {s u : State} (hm : u.mem = s.mem) (hc : u.cfg = s.cfg) (hi : u.ip = s.ip)
    (hr : u.rb = s.rb) (j : Nat) (m : Mode) : resolveIn u j m = resolveIn s j m := by
  simp only [resolveIn, hc, hr, memRead_congr hm hc, paramWord_congr hm hc hi]

theorem resolveOut_congr {s u : State} (hm : u.mem = s.mem) (hc : u.cfg = s.cfg) (hi : u.ip = s.ip)
    (hr : u.rb = s.rb) (j : Nat) (m : Mode) : resolveOut u j m = resolveOut s j m := by
  simp only [resolveOut, hc, hr, paramWord_congr hm hc hi]

/-! ### Operands -/

/-- When an input operand resolves (30_encoding R80). -/
theorem resolveIn_ok_iff (s : State) (j : Nat) (m : Mode) (v : Int) :
    resolveIn s j m = .ok v ↔ ∃ p, paramWord s j = .ok p ∧
      match m with
      | .position => memRead s p = .ok v
      | .immediate => v = p
      | .relative => fits s.cfg (s.rb + p) = true ∧ memRead s (s.rb + p) = .ok v := by
  cases m <;> simp [resolveIn, bind_ok_iff]

/-- When an output operand resolves (30_encoding R81). -/
theorem resolveOut_ok_iff (s : State) (j : Nat) (m : Mode) (d : Nat) :
    resolveOut s j m = .ok d ↔ ∃ p, paramWord s j = .ok p ∧
      match m with
      | .position => checkAddress s.cfg p = .ok d
      | .immediate => False
      | .relative => fits s.cfg (s.rb + p) = true ∧ checkAddress s.cfg (s.rb + p) = .ok d := by
  cases m <;> simp [resolveOut, bind_ok_iff]

/-- A resolved output address is below MEM_LIMIT. -/
theorem admits_of_resolveOut {s : State} {j : Nat} {m : Mode} {d : Nat}
    (h : resolveOut s j m = .ok d) : admits s.cfg d = true := by
  obtain ⟨p, -, h⟩ := (resolveOut_ok_iff _ _ _ _).1 h
  cases m with
  | position => exact ((checkAddress_ok_iff _ _ _).1 h).2
  | immediate => exact h.elim
  | relative => exact ((checkAddress_ok_iff _ _ _).1 h.2).2

end Sys2Proof.Machine
end

