-- ==== Sys2Proof/Laws/Decode.lean ====
section
/-! SUPPORT. The decoder taken apart: the opcode table read both ways, the mode digits, and what a word
that decodes must be. -/

namespace Sys2Proof

/-- The opcode table selects a kind exactly by that kind's opcode (30_encoding R73). -/
theorem kindOf_eq_some_iff (n : Nat) (k : Kind) : kindOf n = some k ↔ n = k.opcode := by
  constructor
  · intro h
    obtain ⟨row, hrow, hk⟩ := Option.map_eq_some_iff.1 h
    have hmem := List.mem_of_find?_eq_some hrow
    have hop : row.1 = n := by simpa using List.find?_some hrow
    subst hk hop
    revert hmem
    simp only [opcodeTable, List.mem_cons, List.not_mem_nil, or_false]
    rintro (rfl | rfl | rfl | rfl | rfl | rfl | rfl | rfl | rfl | rfl) <;> rfl
  · rintro rfl; cases k <;> rfl

/-- A mode digit is legal when it is at most 2 (R75). -/
theorem modeOf_isSome_iff (w j : Nat) : (modeOf w j).isSome = true ↔ digit w (j + 1) ≤ 2 := by
  unfold modeOf modeOfDigit
  split <;> simp_all; omega

/-- The mode of a parameter is the one its digit names (R71). -/
theorem modeOf_eq_some_iff (w j : Nat) (m : Mode) : modeOf w j = some m ↔ digit w (j + 1) = m.digit := by
  unfold modeOf
  generalize digit w (j + 1) = d
  unfold modeOfDigit
  cases m <;> simp only [Mode.digit] <;> split <;> simp_all

/-- All used digits are legal (R75). -/
theorem usedDigitsLegal_iff (w : Nat) (k : Kind) :
    usedDigitsLegal w k = true ↔ ∀ j, 1 ≤ j → j ≤ k.arity → digit w (j + 1) ≤ 2 := by
  simp only [usedDigitsLegal, List.all_eq_true, List.mem_range, modeOf_isSome_iff]
  constructor
  · intro h j h1 h2
    have := h (j - 1) (by omega)
    rwa [show j - 1 + 1 = j by omega] at this
  · intro h j hj
    exact h (j + 1) (by omega) (by omega)

/-- The decode of a non-negative word, by what its opcode selects (R86). -/
theorem decode_natCast (c : Config) (n : Nat) :
    decode c (n : Int) = match kindOf (n % 100) with
      | none => .error ⟨.invalidOpcode, some ((n % 100 : Nat) : Int)⟩
      | some k => decodeKind c n k := by
  unfold decode
  rw [if_neg (by simp)]
  rfl

/-- A negative word decodes to no instruction (R72). -/
theorem decode_negative (c : Config) {w : Int} (h : w < 0) :
    decode c w = .error ⟨.invalidOpcode, none⟩ := by
  unfold decode
  rw [if_pos h]

/-- What holds of a word once its opcode has selected a kind and it decodes (R86). -/
theorem decodeKind_ok {c : Config} {n : Nat} {k : Kind} {i : Instr} (h : decodeKind c n k = .ok i) :
    usedDigitsLegal n k = true ∧ (c.excess = .fault → excessField n k = 0) ∧
      (k.outputs = 1 → modeOf n k.arity ≠ some .immediate) ∧
      i = instrOf k fun j => (modeOf n j).getD .position := by
  unfold decodeKind at h
  grind

/-- A word that decodes is not negative and its opcode selects a kind (R86). -/
theorem decode_ok {c : Config} {w : Int} {i : Instr} (h : decode c w = .ok i) :
    ∃ (n : Nat) (k : Kind), w = (n : Int) ∧ kindOf (n % 100) = some k ∧ decodeKind c n k = .ok i := by
  rcases lt_or_ge w 0 with hw | hw
  · simp [decode_negative c hw] at h
  · obtain ⟨n, rfl⟩ := Int.eq_ofNat_of_zero_le hw
    rw [decode_natCast] at h
    cases hk : kindOf (n % 100) with
    | none => simp [hk] at h
    | some k => exact ⟨n, k, rfl, hk, by simpa [hk] using h⟩

@[simp] theorem instrOf_kind (k : Kind) (m : Nat → Mode) : (instrOf k m).kind = k := by cases k <;> rfl

end Sys2Proof
end

