-- ==== Sys2Proof/Laws/PerInstr.lean ====
section
/-! SUPPORT. Facts about every instruction as syntax, one lemma a constructor. -/

namespace Sys2Proof.Laws.OpcodeDigits

/-- The two low digits of the instruction word are the opcode, whatever the modes, and the kind has one
mode digit for each parameter (30_encoding R71, R73, R84). -/
def Statement (i : Instr) : Prop :=
  encode i % 100 = (i.kind.opcode : Int) ∧ i.modes.length = i.kind.arity ∧
    kindOf i.kind.opcode = some i.kind

theorem add (m1 m2 m3 : Mode) : Statement (.add m1 m2 m3) := by
  cases m1 <;> cases m2 <;> cases m3 <;> exact ⟨by decide, by decide, by decide⟩

theorem mul (m1 m2 m3 : Mode) : Statement (.mul m1 m2 m3) := by
  cases m1 <;> cases m2 <;> cases m3 <;> exact ⟨by decide, by decide, by decide⟩

theorem inp (m1 : Mode) : Statement (.inp m1) := by
  cases m1 <;> exact ⟨by decide, by decide, by decide⟩

theorem out (m1 : Mode) : Statement (.out m1) := by
  cases m1 <;> exact ⟨by decide, by decide, by decide⟩

theorem jt (m1 m2 : Mode) : Statement (.jt m1 m2) := by
  cases m1 <;> cases m2 <;> exact ⟨by decide, by decide, by decide⟩

theorem jf (m1 m2 : Mode) : Statement (.jf m1 m2) := by
  cases m1 <;> cases m2 <;> exact ⟨by decide, by decide, by decide⟩

theorem lt (m1 m2 m3 : Mode) : Statement (.lt m1 m2 m3) := by
  cases m1 <;> cases m2 <;> cases m3 <;> exact ⟨by decide, by decide, by decide⟩

theorem eq (m1 m2 m3 : Mode) : Statement (.eq m1 m2 m3) := by
  cases m1 <;> cases m2 <;> cases m3 <;> exact ⟨by decide, by decide, by decide⟩

theorem arb (m1 : Mode) : Statement (.arb m1) := by
  cases m1 <;> exact ⟨by decide, by decide, by decide⟩

theorem hlt : Statement .hlt := ⟨by decide, by decide, by decide⟩

end Sys2Proof.Laws.OpcodeDigits
end

