-- ==== Sys2Proof/Laws/State.lean ====
section
/-! SUPPORT. Beside State: what each named change of state does to each field. Later proofs cite these
and never unfold a record update. -/

namespace Sys2Proof.Machine

/-! ### storeCell -/

@[simp] theorem State.storeCell_mem (s : State) (d : Nat) (v : Int)
    : (s.storeCell d v).mem = s.mem.write d v := rfl

@[simp] theorem State.storeCell_ip (s : State) (d : Nat) (v : Int)
    : (s.storeCell d v).ip = s.ip := rfl

@[simp] theorem State.storeCell_rb (s : State) (d : Nat) (v : Int)
    : (s.storeCell d v).rb = s.rb := rfl

@[simp] theorem State.storeCell_inq (s : State) (d : Nat) (v : Int)
    : (s.storeCell d v).inq = s.inq := rfl

@[simp] theorem State.storeCell_outlog (s : State) (d : Nat) (v : Int)
    : (s.storeCell d v).outlog = s.outlog := rfl

@[simp] theorem State.storeCell_halted (s : State) (d : Nat) (v : Int)
    : (s.storeCell d v).halted = s.halted := rfl

@[simp] theorem State.storeCell_lastop (s : State) (d : Nat) (v : Int)
    : (s.storeCell d v).lastop = s.lastop := rfl

@[simp] theorem State.storeCell_pipe (s : State) (d : Nat) (v : Int)
    : (s.storeCell d v).pipe = s.pipe := rfl

@[simp] theorem State.storeCell_fault (s : State) (d : Nat) (v : Int)
    : (s.storeCell d v).fault = s.fault := rfl

@[simp] theorem State.storeCell_self (s : State) (d : Nat) (v : Int)
    : (s.storeCell d v).self = s.self := rfl

@[simp] theorem State.storeCell_peers (s : State) (d : Nat) (v : Int)
    : (s.storeCell d v).peers = s.peers := rfl

@[simp] theorem State.storeCell_cfg (s : State) (d : Nat) (v : Int)
    : (s.storeCell d v).cfg = s.cfg := rfl

/-! ### retire -/

@[simp] theorem State.retire_mem (s : State) (k : Kind) (ip' : Int)
    : (s.retire k ip').mem = s.mem := rfl

@[simp] theorem State.retire_ip (s : State) (k : Kind) (ip' : Int)
    : (s.retire k ip').ip = ip' := rfl

@[simp] theorem State.retire_rb (s : State) (k : Kind) (ip' : Int)
    : (s.retire k ip').rb = s.rb := rfl

@[simp] theorem State.retire_inq (s : State) (k : Kind) (ip' : Int)
    : (s.retire k ip').inq = s.inq := rfl

@[simp] theorem State.retire_outlog (s : State) (k : Kind) (ip' : Int)
    : (s.retire k ip').outlog = s.outlog := rfl

@[simp] theorem State.retire_halted (s : State) (k : Kind) (ip' : Int)
    : (s.retire k ip').halted = s.halted := rfl

@[simp] theorem State.retire_lastop (s : State) (k : Kind) (ip' : Int)
    : (s.retire k ip').lastop = .executed k := rfl

@[simp] theorem State.retire_pipe (s : State) (k : Kind) (ip' : Int)
    : (s.retire k ip').pipe = s.pipe := rfl

@[simp] theorem State.retire_fault (s : State) (k : Kind) (ip' : Int)
    : (s.retire k ip').fault = s.fault := rfl

@[simp] theorem State.retire_self (s : State) (k : Kind) (ip' : Int)
    : (s.retire k ip').self = s.self := rfl

@[simp] theorem State.retire_peers (s : State) (k : Kind) (ip' : Int)
    : (s.retire k ip').peers = s.peers := rfl

@[simp] theorem State.retire_cfg (s : State) (k : Kind) (ip' : Int)
    : (s.retire k ip').cfg = s.cfg := rfl

/-! ### setBase -/

@[simp] theorem State.setBase_mem (s : State) (v : Int) : (s.setBase v).mem = s.mem := rfl

@[simp] theorem State.setBase_ip (s : State) (v : Int) : (s.setBase v).ip = s.ip := rfl

@[simp] theorem State.setBase_rb (s : State) (v : Int) : (s.setBase v).rb = v := rfl

@[simp] theorem State.setBase_inq (s : State) (v : Int) : (s.setBase v).inq = s.inq := rfl

@[simp] theorem State.setBase_outlog (s : State) (v : Int) : (s.setBase v).outlog = s.outlog := rfl

@[simp] theorem State.setBase_halted (s : State) (v : Int) : (s.setBase v).halted = s.halted := rfl

@[simp] theorem State.setBase_lastop (s : State) (v : Int) : (s.setBase v).lastop = s.lastop := rfl

@[simp] theorem State.setBase_pipe (s : State) (v : Int) : (s.setBase v).pipe = s.pipe := rfl

@[simp] theorem State.setBase_fault (s : State) (v : Int) : (s.setBase v).fault = s.fault := rfl

@[simp] theorem State.setBase_self (s : State) (v : Int) : (s.setBase v).self = s.self := rfl

@[simp] theorem State.setBase_peers (s : State) (v : Int) : (s.setBase v).peers = s.peers := rfl

@[simp] theorem State.setBase_cfg (s : State) (v : Int) : (s.setBase v).cfg = s.cfg := rfl

/-! ### dropInput -/

@[simp] theorem State.dropInput_mem (s : State) : (s.dropInput).mem = s.mem := rfl

@[simp] theorem State.dropInput_ip (s : State) : (s.dropInput).ip = s.ip := rfl

@[simp] theorem State.dropInput_rb (s : State) : (s.dropInput).rb = s.rb := rfl

@[simp] theorem State.dropInput_inq (s : State) : (s.dropInput).inq = s.inq.tail := rfl

@[simp] theorem State.dropInput_outlog (s : State) : (s.dropInput).outlog = s.outlog := rfl

@[simp] theorem State.dropInput_halted (s : State) : (s.dropInput).halted = s.halted := rfl

@[simp] theorem State.dropInput_lastop (s : State) : (s.dropInput).lastop = s.lastop := rfl

@[simp] theorem State.dropInput_pipe (s : State) : (s.dropInput).pipe = s.pipe := rfl

@[simp] theorem State.dropInput_fault (s : State) : (s.dropInput).fault = s.fault := rfl

@[simp] theorem State.dropInput_self (s : State) : (s.dropInput).self = s.self := rfl

@[simp] theorem State.dropInput_peers (s : State) : (s.dropInput).peers = s.peers := rfl

@[simp] theorem State.dropInput_cfg (s : State) : (s.dropInput).cfg = s.cfg := rfl

/-! ### logOutput -/

@[simp] theorem State.logOutput_mem (s : State) (v : Int) : (s.logOutput v).mem = s.mem := rfl

@[simp] theorem State.logOutput_ip (s : State) (v : Int) : (s.logOutput v).ip = s.ip := rfl

@[simp] theorem State.logOutput_rb (s : State) (v : Int) : (s.logOutput v).rb = s.rb := rfl

@[simp] theorem State.logOutput_inq (s : State) (v : Int) : (s.logOutput v).inq = s.inq := rfl

@[simp] theorem State.logOutput_outlog (s : State) (v : Int)
    : (s.logOutput v).outlog = s.outlog ++ [v] := rfl

@[simp] theorem State.logOutput_halted (s : State) (v : Int)
    : (s.logOutput v).halted = s.halted := rfl

@[simp] theorem State.logOutput_lastop (s : State) (v : Int)
    : (s.logOutput v).lastop = s.lastop := rfl

@[simp] theorem State.logOutput_pipe (s : State) (v : Int) : (s.logOutput v).pipe = s.pipe := rfl

@[simp] theorem State.logOutput_fault (s : State) (v : Int)
    : (s.logOutput v).fault = s.fault := rfl

@[simp] theorem State.logOutput_self (s : State) (v : Int) : (s.logOutput v).self = s.self := rfl

@[simp] theorem State.logOutput_peers (s : State) (v : Int)
    : (s.logOutput v).peers = s.peers := rfl

@[simp] theorem State.logOutput_cfg (s : State) (v : Int) : (s.logOutput v).cfg = s.cfg := rfl

/-! ### suspend -/

@[simp] theorem State.suspend_mem (s : State) : (s.suspend).mem = s.mem := rfl

@[simp] theorem State.suspend_ip (s : State) : (s.suspend).ip = s.ip := rfl

@[simp] theorem State.suspend_rb (s : State) : (s.suspend).rb = s.rb := rfl

@[simp] theorem State.suspend_inq (s : State) : (s.suspend).inq = s.inq := rfl

@[simp] theorem State.suspend_outlog (s : State) : (s.suspend).outlog = s.outlog := rfl

@[simp] theorem State.suspend_halted (s : State) : (s.suspend).halted = s.halted := rfl

@[simp] theorem State.suspend_lastop (s : State) : (s.suspend).lastop = .suspended := rfl

@[simp] theorem State.suspend_pipe (s : State) : (s.suspend).pipe = s.pipe := rfl

@[simp] theorem State.suspend_fault (s : State) : (s.suspend).fault = s.fault := rfl

@[simp] theorem State.suspend_self (s : State) : (s.suspend).self = s.self := rfl

@[simp] theorem State.suspend_peers (s : State) : (s.suspend).peers = s.peers := rfl

@[simp] theorem State.suspend_cfg (s : State) : (s.suspend).cfg = s.cfg := rfl

/-! ### halt -/

@[simp] theorem State.halt_mem (s : State) : (s.halt).mem = s.mem := rfl

@[simp] theorem State.halt_ip (s : State) : (s.halt).ip = s.ip := rfl

@[simp] theorem State.halt_rb (s : State) : (s.halt).rb = s.rb := rfl

@[simp] theorem State.halt_inq (s : State) : (s.halt).inq = s.inq := rfl

@[simp] theorem State.halt_outlog (s : State) : (s.halt).outlog = s.outlog := rfl

@[simp] theorem State.halt_halted (s : State) : (s.halt).halted = true := rfl

@[simp] theorem State.halt_lastop (s : State) : (s.halt).lastop = .executed .hlt := rfl

@[simp] theorem State.halt_pipe (s : State) : (s.halt).pipe = s.pipe := rfl

@[simp] theorem State.halt_fault (s : State) : (s.halt).fault = s.fault := rfl

@[simp] theorem State.halt_self (s : State) : (s.halt).self = s.self := rfl

@[simp] theorem State.halt_peers (s : State) : (s.halt).peers = s.peers := rfl

@[simp] theorem State.halt_cfg (s : State) : (s.halt).cfg = s.cfg := rfl

/-! ### takeFault -/

@[simp] theorem State.takeFault_mem (s : State) (t : Trap) : (s.takeFault t).mem = s.mem := rfl

@[simp] theorem State.takeFault_ip (s : State) (t : Trap) : (s.takeFault t).ip = s.ip := rfl

@[simp] theorem State.takeFault_rb (s : State) (t : Trap) : (s.takeFault t).rb = s.rb := rfl

@[simp] theorem State.takeFault_inq (s : State) (t : Trap) : (s.takeFault t).inq = s.inq := rfl

@[simp] theorem State.takeFault_outlog (s : State) (t : Trap)
    : (s.takeFault t).outlog = s.outlog := rfl

@[simp] theorem State.takeFault_halted (s : State) (t : Trap)
    : (s.takeFault t).halted = s.halted := rfl

@[simp] theorem State.takeFault_lastop (s : State) (t : Trap)
    : (s.takeFault t).lastop = s.lastop := rfl

@[simp] theorem State.takeFault_pipe (s : State) (t : Trap) : (s.takeFault t).pipe = s.pipe := rfl

@[simp] theorem State.takeFault_fault (s : State) (t : Trap)
    : (s.takeFault t).fault = some (faultRecord s t) := rfl

@[simp] theorem State.takeFault_self (s : State) (t : Trap) : (s.takeFault t).self = s.self := rfl

@[simp] theorem State.takeFault_peers (s : State) (t : Trap)
    : (s.takeFault t).peers = s.peers := rfl

@[simp] theorem State.takeFault_cfg (s : State) (t : Trap) : (s.takeFault t).cfg = s.cfg := rfl

/-! ### restore -/

@[simp] theorem State.restore_mem (s : State) (snap : Snapshot)
    : (s.restore snap).mem = snap.mem := rfl

@[simp] theorem State.restore_ip (s : State) (snap : Snapshot)
    : (s.restore snap).ip = snap.ip := rfl

@[simp] theorem State.restore_rb (s : State) (snap : Snapshot)
    : (s.restore snap).rb = snap.rb := rfl

@[simp] theorem State.restore_inq (s : State) (snap : Snapshot)
    : (s.restore snap).inq = snap.inq := rfl

@[simp] theorem State.restore_outlog (s : State) (snap : Snapshot)
    : (s.restore snap).outlog = snap.outlog := rfl

@[simp] theorem State.restore_halted (s : State) (snap : Snapshot)
    : (s.restore snap).halted = snap.halted := rfl

@[simp] theorem State.restore_lastop (s : State) (snap : Snapshot)
    : (s.restore snap).lastop = snap.lastop := rfl

@[simp] theorem State.restore_pipe (s : State) (snap : Snapshot)
    : (s.restore snap).pipe = s.pipe := rfl

@[simp] theorem State.restore_fault (s : State) (snap : Snapshot)
    : (s.restore snap).fault = snap.fault := rfl

@[simp] theorem State.restore_self (s : State) (snap : Snapshot)
    : (s.restore snap).self = s.self := rfl

@[simp] theorem State.restore_peers (s : State) (snap : Snapshot)
    : (s.restore snap).peers = s.peers := rfl

@[simp] theorem State.restore_cfg (s : State) (snap : Snapshot)
    : (s.restore snap).cfg = s.cfg := rfl

/-! ### deliver -/

@[simp] theorem State.deliver_mem (s : State) (i : InstanceId) (v : Int)
    : (s.deliver i v).mem = s.mem := by
  unfold State.deliver; split <;> rfl

@[simp] theorem State.deliver_ip (s : State) (i : InstanceId) (v : Int)
    : (s.deliver i v).ip = s.ip := by
  unfold State.deliver; split <;> rfl

@[simp] theorem State.deliver_rb (s : State) (i : InstanceId) (v : Int)
    : (s.deliver i v).rb = s.rb := by
  unfold State.deliver; split <;> rfl

@[simp] theorem State.deliver_outlog (s : State) (i : InstanceId) (v : Int)
    : (s.deliver i v).outlog = s.outlog := by
  unfold State.deliver; split <;> rfl

@[simp] theorem State.deliver_halted (s : State) (i : InstanceId) (v : Int)
    : (s.deliver i v).halted = s.halted := by
  unfold State.deliver; split <;> rfl

@[simp] theorem State.deliver_lastop (s : State) (i : InstanceId) (v : Int)
    : (s.deliver i v).lastop = s.lastop := by
  unfold State.deliver; split <;> rfl

@[simp] theorem State.deliver_pipe (s : State) (i : InstanceId) (v : Int)
    : (s.deliver i v).pipe = s.pipe := by
  unfold State.deliver; split <;> rfl

@[simp] theorem State.deliver_fault (s : State) (i : InstanceId) (v : Int)
    : (s.deliver i v).fault = s.fault := by
  unfold State.deliver; split <;> rfl

@[simp] theorem State.deliver_self (s : State) (i : InstanceId) (v : Int)
    : (s.deliver i v).self = s.self := by
  unfold State.deliver; split <;> rfl

@[simp] theorem State.deliver_cfg (s : State) (i : InstanceId) (v : Int)
    : (s.deliver i v).cfg = s.cfg := by
  unfold State.deliver; split <;> rfl

/-! ### forward -/

@[simp] theorem State.forward_mem (s : State) (v : Int) : (s.forward v).mem = s.mem := by
  unfold State.forward; split <;> simp

@[simp] theorem State.forward_ip (s : State) (v : Int) : (s.forward v).ip = s.ip := by
  unfold State.forward; split <;> simp

@[simp] theorem State.forward_rb (s : State) (v : Int) : (s.forward v).rb = s.rb := by
  unfold State.forward; split <;> simp

@[simp] theorem State.forward_outlog (s : State) (v : Int) : (s.forward v).outlog = s.outlog := by
  unfold State.forward; split <;> simp

@[simp] theorem State.forward_halted (s : State) (v : Int) : (s.forward v).halted = s.halted := by
  unfold State.forward; split <;> simp

@[simp] theorem State.forward_lastop (s : State) (v : Int) : (s.forward v).lastop = s.lastop := by
  unfold State.forward; split <;> simp

@[simp] theorem State.forward_pipe (s : State) (v : Int) : (s.forward v).pipe = s.pipe := by
  unfold State.forward; split <;> simp

@[simp] theorem State.forward_fault (s : State) (v : Int) : (s.forward v).fault = s.fault := by
  unfold State.forward; split <;> simp

@[simp] theorem State.forward_self (s : State) (v : Int) : (s.forward v).self = s.self := by
  unfold State.forward; split <;> simp

@[simp] theorem State.forward_cfg (s : State) (v : Int) : (s.forward v).cfg = s.cfg := by
  unfold State.forward; split <;> simp

/-- Where delivery goes: to the own queue when the target is this instance. -/
theorem State.deliver_inq (s : State) (i : InstanceId) (v : Int) :
    (s.deliver i v).inq = if i = s.self then s.inq ++ [v] else s.inq := by
  unfold State.deliver; split <;> rfl

/-- Where delivery goes: to a peer's queue otherwise. -/
theorem State.deliver_peers (s : State) (i : InstanceId) (v : Int) :
    (s.deliver i v).peers =
      if i = s.self then s.peers
      else s.peers.map fun p => if p.1 = i then (p.1, p.2.enqueue v) else p := by
  unfold State.deliver; split <;> rfl

@[simp] theorem State.forward_none (s : State) (v : Int) (h : s.pipe = .none) : s.forward v = s := by
  simp [State.forward, h]

@[simp] theorem State.forward_some (s : State) (v : Int) (i : InstanceId) (h : s.pipe = some i) :
    s.forward v = s.deliver i v := by
  simp [State.forward, h]

/-- Forwarding touches the own queue only through a pipe into itself (60_exceptions R231). -/
theorem State.forward_inq (s : State) (v : Int) :
    (s.forward v).inq = if s.pipe = some s.self then s.inq ++ [v] else s.inq := by
  cases h : s.pipe with
  | none => simp [h]
  | some i => simp [h, State.deliver_inq]

/-! ### What Output does to the queues -/

/-- Output appends to the own queue only through a pipe into itself (60_exceptions R231). -/
theorem State.output_inq (s : State) (v : Int) :
    ((s.logOutput v).forward v).inq = if s.pipe = some s.self then s.inq ++ [v] else s.inq :=
  State.forward_inq (s.logOutput v) v

/-- Output appends to the queue of the pipe target and to no other peer's (41_io R124). -/
theorem State.output_peers (s : State) (v : Int) :
    ((s.logOutput v).forward v).peers = s.peers.map fun p =>
      if s.pipe = some p.1 ∧ p.1 ≠ s.self then (p.1, p.2.enqueue v) else p := by
  unfold State.forward
  simp only [State.logOutput_pipe]
  cases hp : s.pipe with
  | none => simp
  | some i =>
    change ((s.logOutput v).deliver i v).peers = _
    rw [State.deliver_peers]
    change (if i = s.self then s.peers else _) = _
    by_cases hi : i = s.self
    · rw [if_pos hi]
      symm
      rw [List.map_congr_left (g := id) (by grind), List.map_id]
    · rw [if_neg hi]
      exact List.map_congr_left (by grind [State.logOutput_peers])

/-- The same, for the peer of one identity. -/
theorem State.output_findKey (s : State) (v : Int) (id : InstanceId) :
    findKey ((s.logOutput v).forward v).peers id =
      (findKey s.peers id).map fun m =>
        if s.pipe = some id ∧ id ≠ s.self then m.enqueue v else m := by
  rw [State.output_peers, ← findKey_map s.peers
    (fun k m => if s.pipe = some k ∧ k ≠ s.self then m.enqueue v else m) id]
  congr 2
  funext p
  split <;> rfl

/-! ### Enqueueing at a peer -/

@[simp] theorem Instance.enqueue_mem (m : Instance) (v : Int) : (m.enqueue v).mem = m.mem := rfl

@[simp] theorem Instance.enqueue_ip (m : Instance) (v : Int) : (m.enqueue v).ip = m.ip := rfl

@[simp] theorem Instance.enqueue_rb (m : Instance) (v : Int) : (m.enqueue v).rb = m.rb := rfl

@[simp] theorem Instance.enqueue_inq (m : Instance) (v : Int) : (m.enqueue v).inq = m.inq ++ [v] := rfl

@[simp] theorem Instance.enqueue_outlog (m : Instance) (v : Int) : (m.enqueue v).outlog = m.outlog := rfl

@[simp] theorem Instance.enqueue_halted (m : Instance) (v : Int) : (m.enqueue v).halted = m.halted := rfl

@[simp] theorem Instance.enqueue_lastop (m : Instance) (v : Int) : (m.enqueue v).lastop = m.lastop := rfl

@[simp] theorem Instance.enqueue_pipe (m : Instance) (v : Int) : (m.enqueue v).pipe = m.pipe := rfl

@[simp] theorem Instance.enqueue_fault (m : Instance) (v : Int) : (m.enqueue v).fault = m.fault := rfl

/-- A snapshot restored gives the same snapshot (60_exceptions R222). -/
@[simp] theorem Instance.restore_snapshot (m : Instance) (snap : Snapshot) :
    (m.restore snap).snapshot = snap := rfl

@[simp] theorem Instance.restore_pipe (m : Instance) (snap : Snapshot) :
    (m.restore snap).pipe = m.pipe := rfl

end Sys2Proof.Machine
end

