-- ==== Sys2Proof/Laws/Steps.lean ====
section
/-! SUPPORT. What a step can do, said once for each shared operation: if it answers a next state, then
one of the cases listed. Statements about steps follow from these without unfolding a meaning. -/

namespace Sys2Proof.Machine

/-- A step ends with what it commits, or with the fault it takes and nothing else. -/
theorem conclude_next {s t : State} {r : Except Trap State} (h : conclude s r = .next t) :
    r = .ok t ∨ ∃ e, r = .error e ∧ t = s.takeFault e := by
  cases r with
  | ok u => simp_all [conclude]
  | error e => simp_all [conclude, eq_comm]

/-- Every conclusion is a next state. -/
theorem conclude_answers (s : State) (r : Except Trap State) : ∃ t, conclude s r = .next t := by
  cases r <;> simp [conclude]

/-- An F3 instruction stores its result and moves past its words, or takes a fault. -/
theorem storeResult_next {k : Kind} {f : Int → Int → Except Trap Int} {m1 m2 m3 : Mode} {s t : State}
    (h : storeResult k f m1 m2 m3 s = .next t) :
    (∃ a b d r, resolveIn s 1 m1 = .ok a ∧ resolveIn s 2 m2 = .ok b ∧ resolveOut s 3 m3 = .ok d ∧
      f a b = .ok r ∧ fits s.cfg (s.ip + 4) = true ∧ t = (s.storeCell d r).retire k (s.ip + 4)) ∨
    ∃ e, t = s.takeFault e := by
  rcases conclude_next h with h | ⟨e, -, h⟩
  · left
    simp only [bind_ok_iff, pure_eq_ok, Except.ok.injEq, rep_ok_iff] at h
    obtain ⟨a, ha, b, hb, d, hd, r, hr, _, ⟨hf, rfl⟩, rfl⟩ := h
    exact ⟨a, b, d, r, ha, hb, hd, hr, hf, rfl⟩
  · exact .inr ⟨e, h⟩

/-- An F3 instruction whose operands resolve and whose results are representable completes. -/
theorem storeResult_completes {k : Kind} {f : Int → Int → Except Trap Int} {m1 m2 m3 : Mode}
    {s : State} {a b r : Int} {d : Nat} (ha : resolveIn s 1 m1 = .ok a) (hb : resolveIn s 2 m2 = .ok b)
    (hd : resolveOut s 3 m3 = .ok d) (hr : f a b = .ok r) (hi : fits s.cfg (s.ip + 4) = true) :
    storeResult k f m1 m2 m3 s = .next ((s.storeCell d r).retire k (s.ip + 4)) := by
  simp [storeResult, ha, hb, hd, hr, rep_of_fits hi, conclude]

/-- A jump goes to its target or past its words, or takes a fault. -/
theorem jumpWhen_next {k : Kind} {taken : Int → Bool} {m1 m2 : Mode} {s t : State}
    (h : jumpWhen k taken m1 m2 s = .next t) :
    (∃ c g, resolveIn s 1 m1 = .ok c ∧ resolveIn s 2 m2 = .ok g ∧
      ((taken c = true ∧ t = s.retire k g) ∨
        (taken c = false ∧ fits s.cfg (s.ip + 3) = true ∧ t = s.retire k (s.ip + 3)))) ∨
    ∃ e, t = s.takeFault e := by
  rcases conclude_next h with h | ⟨e, -, h⟩
  · left
    simp only [bind_ok_iff, pure_eq_ok] at h
    obtain ⟨c, hc, g, hg, h⟩ := h
    refine ⟨c, g, hc, hg, ?_⟩
    by_cases ht : taken c = true
    · simp only [ht, if_true, Except.ok.injEq] at h
      exact .inl ⟨ht, h.symm⟩
    · simp only [ht, Bool.false_eq_true, if_false, bind_ok_iff, rep_ok_iff, Except.ok.injEq] at h
      obtain ⟨_, ⟨hf, rfl⟩, rfl⟩ := h
      exact .inr ⟨by simpa using ht, hf, rfl⟩
  · exact .inr ⟨e, h⟩

/-- Input suspends, consumes the head, or takes a fault. -/
theorem execInp_next {m1 : Mode} {s t : State} (h : execInp m1 s = .next t) :
    (∃ d, resolveOut s 1 m1 = .ok d ∧
      ((s.inq = [] ∧ t = s.suspend) ∨
        ∃ v rest, s.inq = v :: rest ∧ fits s.cfg (s.ip + 2) = true ∧
          t = (s.dropInput.storeCell d v).retire .inp (s.ip + 2))) ∨
    ∃ e, t = s.takeFault e := by
  rcases conclude_next h with h | ⟨e, -, h⟩
  · left
    simp only [bind_ok_iff, pure_eq_ok] at h
    obtain ⟨d, hd, h⟩ := h
    refine ⟨d, hd, ?_⟩
    cases hq : s.inq with
    | nil => rw [hq] at h; simp only [Except.ok.injEq] at h; exact .inl ⟨rfl, h.symm⟩
    | cons v rest =>
      rw [hq] at h
      simp only [bind_ok_iff, rep_ok_iff, Except.ok.injEq] at h
      obtain ⟨_, ⟨hf, rfl⟩, rfl⟩ := h
      exact .inr ⟨v, rest, rfl, hf, rfl⟩
  · exact .inr ⟨e, h⟩

/-- Output logs and forwards its operand, or takes a fault. -/
theorem execOut_next {m1 : Mode} {s t : State} (h : execOut m1 s = .next t) :
    (∃ a, resolveIn s 1 m1 = .ok a ∧ fits s.cfg (s.ip + 2) = true ∧
      t = ((s.logOutput a).forward a).retire .out (s.ip + 2)) ∨
    ∃ e, t = s.takeFault e := by
  rcases conclude_next h with h | ⟨e, -, h⟩
  · left
    simp only [bind_ok_iff, pure_eq_ok, rep_ok_iff, Except.ok.injEq] at h
    obtain ⟨a, ha, _, ⟨hf, rfl⟩, rfl⟩ := h
    exact ⟨a, ha, hf, rfl⟩
  · exact .inr ⟨e, h⟩

/-- AdjustBase adds its operand, or takes a fault. -/
theorem execArb_next {m1 : Mode} {s t : State} (h : execArb m1 s = .next t) :
    (∃ a, resolveIn s 1 m1 = .ok a ∧ fits s.cfg (s.rb + a) = true ∧ fits s.cfg (s.ip + 2) = true ∧
      t = (s.setBase (s.rb + a)).retire .arb (s.ip + 2)) ∨
    ∃ e, t = s.takeFault e := by
  rcases conclude_next h with h | ⟨e, -, h⟩
  · left
    simp only [bind_ok_iff, pure_eq_ok, rep_ok_iff, Except.ok.injEq] at h
    obtain ⟨a, ha, _, ⟨hr, rfl⟩, _, ⟨hf, rfl⟩, rfl⟩ := h
    exact ⟨a, ha, hr, hf, rfl⟩
  · exact .inr ⟨e, h⟩

/-! ### What executing an instruction can do -/

/-- The changes that an instruction which takes no fault makes: one constructor for each way an
instruction ends. -/
inductive Effect : Instr → State → State → Prop where
  | add {m1 m2 m3 s a b d} : resolveIn s 1 m1 = .ok a → resolveIn s 2 m2 = .ok b →
      resolveOut s 3 m3 = .ok d → fits s.cfg (a + b) = true → fits s.cfg (s.ip + 4) = true →
      Effect (.add m1 m2 m3) s ((s.storeCell d (a + b)).retire .add (s.ip + 4))
  | mul {m1 m2 m3 s a b d} : resolveIn s 1 m1 = .ok a → resolveIn s 2 m2 = .ok b →
      resolveOut s 3 m3 = .ok d → fits s.cfg (a * b) = true → fits s.cfg (s.ip + 4) = true →
      Effect (.mul m1 m2 m3) s ((s.storeCell d (a * b)).retire .mul (s.ip + 4))
  | lt {m1 m2 m3 s a b d} : resolveIn s 1 m1 = .ok a → resolveIn s 2 m2 = .ok b →
      resolveOut s 3 m3 = .ok d → fits s.cfg (s.ip + 4) = true →
      Effect (.lt m1 m2 m3) s ((s.storeCell d (lessThanWord a b)).retire .lt (s.ip + 4))
  | eq {m1 m2 m3 s a b d} : resolveIn s 1 m1 = .ok a → resolveIn s 2 m2 = .ok b →
      resolveOut s 3 m3 = .ok d → fits s.cfg (s.ip + 4) = true →
      Effect (.eq m1 m2 m3) s ((s.storeCell d (equalsWord a b)).retire .eq (s.ip + 4))
  | suspends {m1 s d} : resolveOut s 1 m1 = .ok d → s.inq = [] → Effect (.inp m1) s s.suspend
  | inp {m1 s d v rest} : resolveOut s 1 m1 = .ok d → s.inq = v :: rest →
      fits s.cfg (s.ip + 2) = true →
      Effect (.inp m1) s ((s.dropInput.storeCell d v).retire .inp (s.ip + 2))
  | out {m1 s a} : resolveIn s 1 m1 = .ok a → fits s.cfg (s.ip + 2) = true →
      Effect (.out m1) s (((s.logOutput a).forward a).retire .out (s.ip + 2))
  | jtTaken {m1 m2 s c g} : resolveIn s 1 m1 = .ok c → resolveIn s 2 m2 = .ok g → c ≠ 0 →
      Effect (.jt m1 m2) s (s.retire .jt g)
  | jtFallsThrough {m1 m2 s g} : resolveIn s 1 m1 = .ok 0 → resolveIn s 2 m2 = .ok g →
      fits s.cfg (s.ip + 3) = true → Effect (.jt m1 m2) s (s.retire .jt (s.ip + 3))
  | jfTaken {m1 m2 s g} : resolveIn s 1 m1 = .ok 0 → resolveIn s 2 m2 = .ok g →
      Effect (.jf m1 m2) s (s.retire .jf g)
  | jfFallsThrough {m1 m2 s c g} : resolveIn s 1 m1 = .ok c → resolveIn s 2 m2 = .ok g → c ≠ 0 →
      fits s.cfg (s.ip + 3) = true → Effect (.jf m1 m2) s (s.retire .jf (s.ip + 3))
  | arb {m1 s a} : resolveIn s 1 m1 = .ok a → fits s.cfg (s.rb + a) = true →
      fits s.cfg (s.ip + 2) = true →
      Effect (.arb m1) s ((s.setBase (s.rb + a)).retire .arb (s.ip + 2))
  | hlt {s} : Effect .hlt s s.halt

/-- Executing an instruction has its effect, or takes a fault and nothing else. -/
theorem exec_next {i : Instr} {s t : State} (h : exec i s = .next t) :
    Effect i s t ∨ ∃ e, t = s.takeFault e := by
  cases i with
  | add m1 m2 m3 =>
    refine (storeResult_next h).imp (fun h => ?_) id
    obtain ⟨a, b, d, r, ha, hb, hd, hr, hi, rfl⟩ := h
    obtain ⟨hf, rfl⟩ := (rep_ok_iff _ _ _).1 hr
    exact .add ha hb hd hf hi
  | mul m1 m2 m3 =>
    refine (storeResult_next h).imp (fun h => ?_) id
    obtain ⟨a, b, d, r, ha, hb, hd, hr, hi, rfl⟩ := h
    obtain ⟨hf, rfl⟩ := (rep_ok_iff _ _ _).1 hr
    exact .mul ha hb hd hf hi
  | lt m1 m2 m3 =>
    refine (storeResult_next h).imp (fun h => ?_) id
    obtain ⟨a, b, d, r, ha, hb, hd, hr, hi, rfl⟩ := h
    cases hr
    exact .lt ha hb hd hi
  | eq m1 m2 m3 =>
    refine (storeResult_next h).imp (fun h => ?_) id
    obtain ⟨a, b, d, r, ha, hb, hd, hr, hi, rfl⟩ := h
    cases hr
    exact .eq ha hb hd hi
  | inp m1 =>
    refine (execInp_next h).imp (fun h => ?_) id
    obtain ⟨d, hd, ⟨hq, rfl⟩ | ⟨v, rest, hq, hi, rfl⟩⟩ := h
    · exact .suspends hd hq
    · exact .inp hd hq hi
  | out m1 =>
    refine (execOut_next h).imp (fun h => ?_) id
    obtain ⟨a, ha, hi, rfl⟩ := h
    exact .out ha hi
  | jt m1 m2 =>
    refine (jumpWhen_next h).imp (fun h => ?_) id
    obtain ⟨c, g, hc, hg, ⟨ht, rfl⟩ | ⟨ht, hi, rfl⟩⟩ := h
    · exact .jtTaken hc hg (by simpa using ht)
    · obtain rfl : c = 0 := by simpa using ht
      exact .jtFallsThrough hc hg hi
  | jf m1 m2 =>
    refine (jumpWhen_next h).imp (fun h => ?_) id
    obtain ⟨c, g, hc, hg, ⟨ht, rfl⟩ | ⟨ht, hi, rfl⟩⟩ := h
    · obtain rfl : c = 0 := by simpa using ht
      exact .jfTaken hc hg
    · exact .jfFallsThrough hc hg (by simpa using ht) hi
  | arb m1 =>
    refine (execArb_next h).imp (fun h => ?_) id
    obtain ⟨a, ha, hr, hi, rfl⟩ := h
    exact .arb ha hr hi
  | hlt =>
    obtain rfl : s.halt = t := by simpa [exec, execHlt, conclude] using h
    exact .inl .hlt

/-- When fetch and decode answer an instruction (30_encoding R87). -/
theorem fetchDecode_ok_iff (s : State) (i : Instr) :
    fetchDecode s = .ok i ↔ ∃ w, memRead s s.ip = .ok w ∧ decode s.cfg w = .ok i := by
  simp [fetchDecode, bind_ok_iff]

theorem fetchDecode_error_iff (s : State) (e : Trap) :
    fetchDecode s = .error e ↔
      memRead s s.ip = .error e ∨ ∃ w, memRead s s.ip = .ok w ∧ decode s.cfg w = .error e := by
  simp [fetchDecode, bind_error_iff]

/-- Fetch and decode read memory, `ip` and the parameters only. -/
theorem fetchDecode_congr {s u : State} (hm : u.mem = s.mem) (hc : u.cfg = s.cfg) (hi : u.ip = s.ip) :
    fetchDecode u = fetchDecode s := by
  simp only [fetchDecode, hc, hi, memRead_congr hm hc]

/-- A step of a running instance is the fault of its fetch or the decoded instruction. -/
theorem step_running {s : State} (hf : s.fault = none) (hh : s.halted = false) :
    step s = match fetchDecode s with
      | .ok i => exec i s
      | .error e => .next (s.takeFault e) := by
  simp only [step, hf, hh, Bool.false_eq_true, if_false] <;> rfl

/-- Everything a step can do. -/
theorem step_next {s t : State} (h : step s = .next t) :
    (s.fault ≠ none ∧ t = s) ∨ (s.fault = none ∧ s.halted = true ∧ t = s) ∨
    (s.fault = none ∧ s.halted = false ∧ ∃ e, fetchDecode s = .error e ∧ t = s.takeFault e) ∨
    (s.fault = none ∧ s.halted = false ∧ ∃ i, fetchDecode s = .ok i ∧ exec i s = .next t) := by
  unfold step at h
  cases hf : s.fault with
  | some r => rw [hf] at h; simp_all
  | none =>
    rw [hf] at h
    cases hh : s.halted with
    | true => rw [hh] at h; simp_all
    | false =>
      rw [hh] at h
      simp only [Bool.false_eq_true, if_false] at h
      cases hd : fetchDecode s with
      | ok i => rw [hd] at h; exact .inr (.inr (.inr ⟨rfl, rfl, i, rfl, h⟩))
      | error e =>
        rw [hd] at h
        simp only [Host.Outcome.next.injEq] at h
        exact .inr (.inr (.inl ⟨rfl, rfl, e, rfl, h.symm⟩))

/-- Everything a step can do, down to the effects of the instructions: nothing, a fault, or an effect. -/
theorem step_effect {s t : State} (h : step s = .next t) :
    (s.fault ≠ none ∧ t = s) ∨ (s.fault = none ∧ s.halted = true ∧ t = s) ∨
    (s.fault = none ∧ s.halted = false ∧ ∃ e, t = s.takeFault e) ∨
    (s.fault = none ∧ s.halted = false ∧ ∃ i, fetchDecode s = .ok i ∧ Effect i s t) := by
  rcases step_next h with h | h | ⟨hf, hh, e, -, ht⟩ | ⟨hf, hh, i, hd, hx⟩
  · exact .inl h
  · exact .inr (.inl h)
  · exact .inr (.inr (.inl ⟨hf, hh, e, ht⟩))
  · rcases exec_next hx with hx | ⟨e, ht⟩
    · exact .inr (.inr (.inr ⟨hf, hh, i, hd, hx⟩))
    · exact .inr (.inr (.inl ⟨hf, hh, e, ht⟩))

/-- What the host sees of a step (60_exceptions R213). -/
theorem callStep_of_next {s t : State} (h : step s = .next t) :
    callStep s = (t, .status (stepStatus s t)) := by simp [callStep, h]

/-- No effect writes the fault register. -/
theorem Effect.fault_eq {i : Instr} {s t : State} (h : Effect i s t) : t.fault = s.fault := by
  cases h <;> simp

end Sys2Proof.Machine
end

