-- ==== Sys2Proof/Laws/Runs.lean ====
section
/-! SUPPORT. Runs: what the outcome state of an instance reads, and what one step of an instance whose
part in a run has ended does. -/

namespace Sys2Proof.Machine

/-- The outcome state reads memory, `ip`, `rb`, the queue, `halted`, the fault register and the parameters
(70_reset R261): not `lastop`, the log, the pipe or other instances. -/
theorem runState_congr {s u : State} (hm : u.mem = s.mem) (hc : u.cfg = s.cfg) (hi : u.ip = s.ip)
    (hr : u.rb = s.rb) (hq : u.inq = s.inq) (hh : u.halted = s.halted) (hf : u.fault = s.fault) :
    runState u = runState s := by
  unfold runState waitsForInput
  rw [hf, hh, hq, fetchDecode_congr hm hc hi]
  simp only [resolveOut_congr hm hc hi hr]

@[simp] theorem runState_suspend (s : State) : runState s.suspend = runState s :=
  runState_congr rfl rfl rfl rfl rfl rfl rfl

/-- When an instance waits (R261). -/
theorem waitsForInput_iff (s : State) :
    waitsForInput s = true ↔
      s.inq = [] ∧ ∃ m1 d, fetchDecode s = .ok (.inp m1) ∧ resolveOut s 1 m1 = .ok d := by
  unfold waitsForInput
  split
  · next m1 hq hd => cases hr : resolveOut s 1 m1 <;> simp_all [Except.isOk, Except.toBool]
  · next hn =>
    simp only [Bool.false_eq_true, false_iff, not_and, not_exists]
    intro hq m1 d hd _
    exact hn m1 hq hd

/-- A step of an instance that is not runnable changes nothing, or suspends (R261, R262). -/
theorem step_of_not_runnable {s : State} (h : runState s ≠ .runnable) :
    step s = .next s ∨ step s = .next s.suspend := by
  unfold runState at h
  cases hf : s.fault with
  | some r => left; simp [step, hf]
  | none =>
    cases hh : s.halted with
    | true => left; simp [step, hf, hh]
    | false =>
      right
      simp only [hf, hh, Option.isSome_none, Bool.false_eq_true, if_false, ne_eq, ite_eq_right_iff,
        reduceCtorEq, imp_false, not_not] at h
      obtain ⟨hq, m1, d, hd, hr⟩ := (waitsForInput_iff s).1 h
      rw [step_running hf hh, hd]
      simp [exec, execInp, hr, hq, conclude]

end Sys2Proof.Machine
end

