-- ==== Sys2Proof/Tests/Slice0.lean ====
section
/-! SUPPORT. Tests. The expected results of the one-step tests are those of spec/95_test_vectors.md,
named by its identifiers. After them, for every statement that has hypotheses, a theorem whose name
begins `test_witness_` gives states and operands that meet them all, and one for each clause. -/

namespace Sys2Proof.Tests

open Sys2Proof Sys2Proof.Machine

/-! ### Helpers -/

/-- The machine after reset with a program in memory. -/
def load (program : List Int) : State := { State.reset with mem := Memory.image program }

/-- The same under other parameters. -/
def loadWith (wordBits memLimit : Option Nat) (excess : ExcessDigits) (program : List Int) : State :=
  { load program with cfg := ⟨wordBits, memLimit, excess⟩ }

/-- The same with 64-bit words. -/
def load64 (program : List Int) : State := loadWith (some 64) none .fault program

/-- The same under `ignore`. -/
def loadIgnore (program : List Int) : State := loadWith none none .ignore program

/-- The same with MEM_LIMIT. -/
def loadLimit (limit : Nat) (program : List Int) : State := loadWith none (some limit) .fault program

/-- The state after one step. -/
def after (s : State) : State := (callStep s).1

/-- The record of the fault register as numbers, as 95 writes it: cause code, `ip`, word, info. -/
def faultOf (s : State) : Option (Nat × Int × Option Int × Option Int) :=
  s.fault.map fun r => (causeCode r.cause, r.ip, r.word, r.info)

/-! ### WellFormed: every check refuses an ill-formed term -/

theorem test_wellFormed_refuses_immediate_outputs :
    (Instr.add .position .position .immediate).wellFormed = false ∧
    (Instr.mul .position .position .immediate).wellFormed = false ∧
    (Instr.inp .immediate).wellFormed = false ∧
    (Instr.lt .position .position .immediate).wellFormed = false ∧
    (Instr.eq .position .position .immediate).wellFormed = false := by decide

theorem test_wellFormed_accepts_immediate_inputs :
    (Instr.add .immediate .immediate .relative).wellFormed = true ∧
    (Instr.out .immediate).wellFormed = true ∧ (Instr.jt .immediate .immediate).wellFormed = true ∧
    (Instr.jf .immediate .immediate).wellFormed = true ∧ (Instr.arb .immediate).wellFormed = true ∧
    Instr.hlt.wellFormed = true := by decide

/-! ### Decode: words of 95 section 2.1, digit by digit from 30_encoding R71 -/

/-- T-D1, T-D3, T-D4. -/
theorem test_decode_add :
    decode Config.standard 1 = .ok (.add .position .position .position) ∧
    decode Config.standard 1101 = .ok (.add .immediate .immediate .position) ∧
    decode Config.standard 20001 = .ok (.add .position .position .relative) := by decide

/-- T-D2, and T-A14's word. -/
theorem test_decode_mul :
    decode Config.standard 1002 = .ok (.mul .position .immediate .position) ∧
    decode Config.standard 1102 = .ok (.mul .immediate .immediate .position) := by decide

/-- T-D6, T-D7. -/
theorem test_decode_inp :
    decode Config.standard 3 = .ok (.inp .position) ∧
    decode Config.standard 203 = .ok (.inp .relative) := by decide

/-- T-D8. -/
theorem test_decode_out :
    decode Config.standard 4 = .ok (.out .position) ∧
    decode Config.standard 104 = .ok (.out .immediate) ∧
    decode Config.standard 204 = .ok (.out .relative) := by decide

/-- T-D10, T-D11. -/
theorem test_decode_jumps :
    decode Config.standard 2105 = .ok (.jt .immediate .relative) ∧
    decode Config.standard 1106 = .ok (.jf .immediate .immediate) := by decide

/-- T-D12, T-D13. -/
theorem test_decode_compares :
    decode Config.standard 21107 = .ok (.lt .immediate .immediate .relative) ∧
    decode Config.standard 22208 = .ok (.eq .relative .relative .relative) := by decide

/-- T-D5, T-D9. -/
theorem test_decode_system :
    decode Config.standard 109 = .ok (.arb .immediate) ∧
    decode Config.standard 209 = .ok (.arb .relative) ∧
    decode Config.standard 99 = .ok .hlt := by decide

/-- T-D14 to T-D20: opcodes and signs. -/
theorem test_decode_refuses_opcodes :
    ([0, 98, 10, 50, 100, -1, -99].map fun w => faultOf (after (load [w, 0, 0, 0, 0]))) =
      [some (1, 0, some 0, some 0), some (1, 0, some 98, some 98), some (1, 0, some 10, some 10),
       some (1, 0, some 50, some 50), some (1, 0, some 100, some 0), some (1, 0, some (-1), none),
       some (1, 0, some (-99), none)] := by decide

/-- T-D21 to T-D30: modes. -/
theorem test_decode_refuses_modes :
    ([103, 303, 3001, 30001, 401, 199, 1199, 1104, 1109, 1103].map fun w =>
        (faultOf (after (load [w, 0, 0, 0, 0]))).map fun r => (r.1, r.2.2.2)) =
      [some (3, none), some (4, none), some (4, none), some (4, none), some (4, none), some (4, none),
       some (4, none), some (4, none), some (4, none), some (4, none)] := by decide

/-- T-D31 to T-D35: `ignore`. -/
theorem test_decode_ignore :
    (callStep (loadIgnore [199, 5, 0, 0, 0, 0])).2 = .status (.executed .hlt) ∧
    (callStep (loadIgnore [10099, 5, 0, 0, 0, 0])).2 = .status (.executed .hlt) ∧
    (after (loadIgnore [1104, 5, 0, 0, 0, 0])).outlog = [5] ∧
    (callStep (loadIgnore [100003, 5, 0, 0, 0, 0])).2 = .status .suspended ∧
    faultOf (after (loadIgnore [1103, 5, 0, 0, 0, 0])) = some (3, 0, some 1103, none) := by decide

/-- The words that the encoder writes, from R88: opcode plus 100 times the mode digits. -/
theorem test_encode_words :
    encode (.eq .relative .relative .relative) = 22208 ∧ encode (.jt .immediate .relative) = 2105 ∧
    encode (.inp .relative) = 203 ∧ encode .hlt = 99 := by decide

/-! ### One step of each instruction -/

/-- T-A1, T-A3. -/
theorem test_add :
    (after (load [1101, 2, 3, 5, 99, 0])).mem.read 5 = 5 ∧
    (after (load [1101, 2, 3, 5, 99, 0])).ip = 4 ∧
    (after (load [1101, -7, -3, 5, 99, 0])).mem.read 5 = -10 := by decide

/-- T-A7, T-A10 to T-A12. -/
theorem test_add_alias_and_bounds :
    (after (load [1, 0, 0, 0, 99])).mem.read 0 = 2 ∧
    (after (load [1101, 4611686018427387904, 4611686018427387904, 5, 99, 0])).mem.read 5 =
      9223372036854775808 ∧
    faultOf (after (load64 [1101, 4611686018427387904, 4611686018427387904, 5, 99, 0])) =
      some (5, 0, some 1101, some 9223372036854775808) ∧
    (after (load64 [1101, -4611686018427387904, -4611686018427387904, 5, 99, 0])).mem.read 5 =
      -9223372036854775808 := by decide

/-- T-A4, T-A6, T-A8. -/
theorem test_mul :
    (after (load [1102, -4, 6, 5, 99, 0])).mem.read 5 = -24 ∧
    (after (load [1102, 0, -6, 5, 99, 7])).mem.read 5 = 0 ∧
    (after (load [2, 4, 4, 5, 99, 0])).mem.read 5 = 9801 := by decide

/-- T-A14, T-A16. -/
theorem test_mul_bounds :
    faultOf (after (load64 [1102, 4294967296, 4294967296, 5, 99, 0])) =
      some (5, 0, some 1102, some 18446744073709551616) ∧
    faultOf (after (load64 [1102, -1, -9223372036854775808, 5, 99, 0])) =
      some (5, 0, some 1102, some 9223372036854775808) := by decide

/-- T-I1, T-I2, T-I4. -/
theorem test_inp :
    (after { load [3, 3, 99, 0] with inq := [7] }).mem.read 3 = 7 ∧
    (after { load [3, 3, 99, 0] with inq := [7] }).ip = 2 ∧
    after (load [3, 3, 99, 0]) = { load [3, 3, 99, 0] with lastop := .suspended } ∧
    (after { load [3, 0, 99] with inq := [4, 5] }).mem.read 0 = 4 ∧
    (after { load [3, 0, 99] with inq := [4, 5] }).inq = [5] := by decide

/-- T-I3, T-I6, T-I8, T-I9: relative output; an illegal output address faults, not suspends. -/
theorem test_inp_output_address :
    (after { load [203, -2, 99, 0] with rb := 5, inq := [-9] }).mem.read 3 = -9 ∧
    faultOf (after (load [103, 3, 99, 0])) = some (3, 0, some 103, none) ∧
    faultOf (after (load [3, -1, 99])) = some (2, 0, some 3, some (-1)) ∧
    faultOf (after (loadLimit 5 [3, 7, 99])) = some (6, 0, some 3, some 7) := by decide

/-- T-I10 to T-I12. -/
theorem test_out :
    (after (load [104, -42, 99])).outlog = [-42] ∧ (after (load [4, 3, 99, 17])).outlog = [17] ∧
    (after { load [204, -1, 99] with rb := 1 }).outlog = [204] := by decide

/-- T-I14, and P6 step 1: the pipe, to another instance and to the instance itself. -/
theorem test_out_pipe :
    ((after { load [104, 8] with pipe := some 5, peers := [(5, { Instance.reset with inq := [1] })] }).peers.map
        fun p => p.2.inq) = [[1, 8]] ∧
    (after { load [104, 7, 3, 9, 4, 9, 99] with pipe := some 0 }).inq = [7] := by decide

/-- T-J2, T-J3, T-J6, T-J7. -/
theorem test_jt :
    (after (load [1105, 0, 7])).ip = 3 ∧ (after (load [1105, -1, 7])).ip = 7 ∧
    (after (load [5, 3, 4, 9, 11])).ip = 11 ∧ (after { load [2005, 3, 1, 99] with rb := 2 }).ip = 99 := by
  decide

/-- T-J4, T-J5. -/
theorem test_jf : (after (load [1106, 0, 7])).ip = 7 ∧ (after (load [1106, 5, 7])).ip = 3 := by decide

/-- T-C1 to T-C5, T-C9. -/
theorem test_lt :
    ([(3, 5), (5, 3), (5, 5), (-1, 0), (0, -1)].map fun p =>
      (after (load [1107, p.1, p.2, 9])).mem.read 9) = [1, 0, 0, 1, 0] ∧
    (after (load [7, 0, 0, 0])).mem.read 0 = 0 := by decide

/-- T-C6 to T-C8. -/
theorem test_eq :
    (after (load [1108, -5, -5, 9])).mem.read 9 = 1 ∧ (after (load [1108, 5, -5, 9])).mem.read 9 = 0 ∧
    (after (load [8, 100, 9, 9])).mem.read 9 = 1 := by decide

/-- T-S3 to T-S7. -/
theorem test_arb :
    (after { load [109, -5, 99] with rb := 2 }).rb = -3 ∧
    (after { load [209, 1, 99] with rb := 1 }).rb = 100 ∧ (after (load [9, 1, 99])).rb = 1 ∧
    faultOf (after { load [209, -3, 99] with rb := 1 }) = some (2, 0, some 209, some (-2)) ∧
    faultOf (after { load64 [109, 1, 99] with rb := 9223372036854775807 }) =
      some (5, 0, some 109, some 9223372036854775808) := by decide

/-- T-S8 to T-S10. -/
theorem test_hlt :
    after { load [99, 1, 2] with inq := [3] } =
      { load [99, 1, 2] with inq := [3], halted := true, lastop := .executed .hlt } ∧
    callStep (after (load [99])) = (after (load [99]), .status .halted) := by decide

/-! ### Faults and host operations -/

/-- T-F4. -/
theorem test_fetch_fault :
    faultOf (after { load [1101, 1, 1, 3] with ip := -2 }) = some (2, -2, none, some (-2)) := by decide

/-- T-F1, T-F2, T-F8. -/
theorem test_faults :
    faultOf (after (load [1, -1, -2, -3])) = some (2, 0, some 1, some (-1)) ∧
    faultOf (after (load [22201, -1, -2, -3, 99])) = some (2, 0, some 22201, some (-1)) ∧
    faultOf (after (loadLimit 4 [1101, 1, 1, 4])) = some (6, 0, some 1101, some 4) := by decide

/-- T-F5: sticky. -/
theorem test_fault_is_sticky :
    (callStep (after (load [0, 1]))).1 = after (load [0, 1]) ∧
    faultOf (after (load [0, 1])) = some (1, 0, some 0, some 0) := by decide

/-- T-J12, T-S11, T-F9: `ip + 3` is not computed where the jump is taken, nor by Halt; a parameter's
address that is not representable faults. -/
theorem test_ip_bounds :
    (after { load64 [] with ip := 9223372036854775805, mem :=
      [(9223372036854775805, 1105), (9223372036854775806, 1), (9223372036854775807, 7)] }).ip = 7 ∧
    (after { load64 [] with ip := 9223372036854775805, mem := [(9223372036854775805, 99)] }).halted =
      true ∧
    faultOf (after { load64 [] with ip := 9223372036854775807, mem := [(9223372036854775807, 104)] }) =
      some (5, 9223372036854775807, some 104, some 9223372036854775808) := by decide

/-- T-H1 to T-H4. -/
theorem test_peek :
    peek (load [303]) = .kind .inp ∧ peek (after (load [303])) = .faulted ∧
    peek (after (load [99])) = .halted ∧ peek (load [50]) = .invalid := by decide

/-- T-H5 to T-H8. -/
theorem test_host_calls :
    callHere { load [] with outlog := [1, 2, 3] } (.drainOutput 2) =
      ({ load [] with outlog := [3] }, .values [1, 2]) ∧
    (callHere { load [] with outlog := [1, 2, 3] } (.truncateOutput 1)).1.outlog = [1, 2] ∧
    (callHere { load [] with outlog := [1, 2, 3] } (.drainOutput 4)).2 = .refused ∧
    (callHere (load64 []) (.appendInput 9223372036854775808)).2 = .refused := by decide

/-- T-F10, and T-H10: construction refused; an import keeps the pipe. -/
theorem test_construct_and_import :
    construct ⟨none, some 4, .fault⟩ [1, 2, 3, 4, 5] [] = none ∧
    (callHere (load []) (.importState { load [99] with pipe := some 3 : State }.toInstance.snapshot)).1 =
      load [99] := by decide

/-- The grammar of 70_reset R255: blanks, signs and leading zeros are read; an empty field is not. -/
theorem test_parse :
    parseProgram ['1', ',', ' ', '-', '0', '7', '\n'] = some [1, -7] ∧
    parseProgram ['+', '5'] = some [5] ∧ parseProgram ['1', ',', ',', '2'] = none ∧
    parseProgram ['-'] = none ∧ parseProgram [] = none ∧ parseProgram ['1', ' ', '2'] = none := by decide

/-- The examples of 30_encoding R88, and T-S2. -/
theorem test_assemble_examples :
    assembleText "add [9], [10], [3]".toList = some [1, 9, 10, 3] ∧
    assembleText "mul [4], 3, [4] ; times".toList = some [1002, 4, 3, 4] ∧
    assembleText "out [rb-1]".toList = some [204, -1] ∧ assembleText "nop".toList = some [109, 0] ∧
    assembleText "in 3".toList = none ∧ assembleText "add 1, 2".toList = none := by decide

/-- Lines of P1 of 95, with its labels. -/
theorem test_assemble_labels :
    assembleText "in [n]\nloop: out [n]\njnz [t], loop\nn: .word 0\nt:".toList =
      some [3, 7, 4, 7, 1005, 8, 2, 0] := by decide

/-- How a line is written. -/
theorem test_write_line :
    (AsmLine.mk (some "x") (some (.core .add [.position (.number 16), .immediate (.number (-1)),
      .relative true (.number 2)]))).write = "x: add [16], -1, [rb-2]".toList := by decide

/-! ### The words the host places -/

theorem test_placed_word_runs :
    decodeTableWord 0 109 = some (.arb .immediate) ∧ decodeTableWord 0 103 = none ∧
    fetchDecode (State.reset.withFetchWord 0 109) = .ok (.arb .immediate) := by decide

/-! ### Witnesses: encoding -/

theorem test_witness_DecodeInvertsEncode : (Instr.add .immediate .relative .relative).wellFormed = true := by
  decide

theorem test_witness_DecodedWordIsEncoding :
    decode Config.standard 22208 = .ok (.eq .relative .relative .relative) ∧
    decode ⟨none, none, .ignore⟩ 1104 = .ok (.out .immediate) := by decide

/-- A running state whose word is not legal; the parameter `ignore`. -/
theorem test_witness_LegalWordsCounted :
    Running (load [100]) ∧ (load [100]).cfg.excess = .fault ∧ memRead (load [100]) 0 = .ok 100 ∧
    (⟨none, none, .ignore⟩ : Config).excess = .ignore := by decide

/-- A negative word, and the opcodes 0, 10 and 98. -/
theorem test_witness_IllegalOpcodesFault :
    ([-1, 0, 10, 98].all fun w => decide (Running (load [w]) ∧ memRead (load [w]) 0 = .ok w)) = true := by
  decide

/-- For each clause, a word: a used digit 3; an excess digit under `fault` and under `ignore`; all
digits legal. -/
theorem test_witness_ModeDigitsChecked :
    (Running (load [30001]) ∧ memRead (load [30001]) 0 = .ok 30001 ∧ kindOf (30001 % 100) = some .add ∧
      3 ≤ digit 30001 4) ∧
    (Running (load [1104]) ∧ memRead (load [1104]) 0 = .ok 1104 ∧ kindOf (1104 % 100) = some .out ∧
      (load [1104]).cfg.excess = .fault ∧ 1104 / 10 ^ (Kind.out.arity + 2) ≠ 0) ∧
    (Running (loadIgnore [1104]) ∧ memRead (loadIgnore [1104]) 0 = .ok 1104 ∧
      (loadIgnore [1104]).cfg.excess = .ignore) ∧
    (Running (load [204]) ∧ memRead (load [204]) 0 = .ok 204 ∧ kindOf (204 % 100) = some .out ∧ digit 204 2 ≤ 2 ∧
      204 / 10 ^ (Kind.out.arity + 2) = 0) := by decide

/-- Mode 1 on the output parameter, mode 2 on it, and a kind without one. -/
theorem test_witness_OutputModeChecked :
    ([(103, Kind.inp), (203, .inp), (104, .out)].all fun p =>
      decide (Running (load [(p.1 : Nat)]) ∧ memRead (load [(p.1 : Nat)]) 0 = .ok (p.1 : Nat) ∧
        kindOf (p.1 % 100) = some p.2 ∧ p.2.arity = 1 ∧ digit p.1 2 ≤ 2 ∧
        p.1 / 10 ^ (p.2.arity + 2) = 0)) = true ∧
    (Kind.inp.outputs = 1 ∧ digit 103 (Kind.inp.arity + 1) = 1) ∧ digit 203 (Kind.inp.arity + 1) ≠ 1 ∧
    Kind.out.outputs = 0 := by decide

/-! ### Witnesses: the step cycle -/

theorem test_witness_StepRunsDecodedInstruction :
    (Running (load [109, 1]) ∧ memRead (load [109, 1]) 0 = .ok 109 ∧
      decode Config.standard 109 = .ok (.arb .immediate)) ∧
    ((load [109, 1]).ip = ((0 : Nat) : Int) ∧ admits (load [109, 1]).cfg 0 = true ∧
      (load [109, 1]).mem.read 0 = encode (.arb .immediate)) := by decide

theorem test_witness_PlacedInstructionRuns :
    State.reset.cfg = Config.standard ∧ decodeTableWord 0 21107 = some (.lt .immediate .immediate .relative) := by
  decide

/-- A negative `ip`, and `ip` at MEM_LIMIT. -/
theorem test_witness_FetchFaultHasNoWord :
    (Running { load [] with ip := -1 } ∧ ({ load [] with ip := -1 } : State).ip < 0) ∧
    (Running { loadLimit 4 [] with ip := 4 } ∧ admits (loadLimit 4 []).cfg (4 : Int).toNat = false) := by
  decide

theorem test_witness_FaultIsSticky :
    (after (load [0])).fault = some ⟨.invalidOpcode, 0, some 0, some 0⟩ ∧
    ∀ snap, HostCall.peekNextOperation ≠ .importState snap := ⟨by decide, fun _ => by simp⟩

theorem test_halted_good : (after (load [99])).Good := by
  have peers : (after (load [99])).peers = [] := by decide
  constructor <;> first | decide | skip
  · constructor <;> decide
  · simp [peers]

theorem test_witness_HaltedStepDoesNothing :
    (after (load [99])).fault = none ∧ (after (load [99])).halted = true ∧ (after (load [99])).Good :=
  ⟨by decide, by decide, test_halted_good⟩

/-- One state for each cause of 60_exceptions R200. -/
theorem test_witness_FaultsArePrecise :
    ((load [0]).fault = none ∧ step (load [0]) = .next (after (load [0]))) ∧
    (after (load [0])).fault = some ⟨.invalidOpcode, 0, some 0, some 0⟩ := ⟨⟨by decide, rfl⟩, by decide⟩

theorem test_witness_FaultInfoByCause :
    [load [-1], load [4, -3], load [103], load [303], load64 [1102, 9223372036854775807, 2, 5],
      loadLimit 4 [1101, 1, 1, 4]].map (fun s => (after s).fault.map FaultRecord.cause) =
      [some .invalidOpcode, some .negativeAddress, some .invalidOutputMode, some .invalidMode,
       some .wordOverflow, some .addressLimit] := by decide

theorem test_witness_UnboundedParametersNeverRaise :
    (step (load [4, -3]) = .next (after (load [4, -3])) ∧
      (after (load [4, -3])).fault = some ⟨.negativeAddress, 0, some 4, some (-3)⟩) ∧
    ((load [4, -3]).cfg.wordBits = none ∧ (load [4, -3]).cfg.memLimit = none) :=
  ⟨⟨rfl, by decide⟩, by decide⟩

theorem test_witness_ExecutionFaultCauses :
    (Instr.out .position).wellFormed = true ∧
    exec (.out .position) (load [4, -3]) = .next (after (load [4, -3])) ∧
    (after (load [4, -3])).fault = some ⟨.negativeAddress, 0, some 4, some (-3)⟩ :=
  ⟨by decide, rfl, by decide⟩

/-! ### Witnesses: operands -/

/-- `s` at another instruction pointer. -/
def movedTo (s : State) (a : Int) : State := { s with ip := a }

/-- The address of the parameter word: not representable, negative, at MEM_LIMIT. -/
theorem test_witness_InputOperandByMode_parameter :
    fits (load64 []).cfg ((movedTo (load64 []) 9223372036854775807).ip + (1 : Nat)) = false ∧
    (fits (load []).cfg ((movedTo (load []) (-5)).ip + (1 : Nat)) = true ∧
      (movedTo (load []) (-5)).ip + (1 : Nat) < (0 : Int)) ∧
    (fits (loadLimit 4 []).cfg ((movedTo (loadLimit 4 []) 3).ip + (1 : Nat)) = true ∧
      (movedTo (loadLimit 4 []) 3).ip + (1 : Nat) = ((4 : Nat) : Int) ∧
      admits (loadLimit 4 []).cfg 4 = false) := by decide

/-- For every state below, the parameter word is read at 1. -/
def parameterAtOne (s : State) : Bool :=
  decide (fits s.cfg (s.ip + (1 : Nat)) = true ∧ s.ip + (1 : Nat) = ((1 : Nat) : Int) ∧ admits s.cfg 1 = true)

/-- The address of the operand in relative mode: not representable, negative, at MEM_LIMIT, legal. -/
theorem test_witness_InputOperandByMode_relative :
    ([{ load64 [204, 1] with rb := 9223372036854775807 }, { load [204, 3] with rb := -7 },
      { loadLimit 4 [204, 3] with rb := 1 }, { loadLimit 4 [204, 3] with rb := 0 }].map fun s =>
        (parameterAtOne s, fits s.cfg (s.rb + s.mem.read 1), decide (s.rb + s.mem.read 1 < 0),
          admits s.cfg (s.rb + s.mem.read 1).toNat)) =
      [(true, false, false, true), (true, true, true, true), (true, true, false, false),
       (true, true, false, true)] := by decide

/-- The address of the operand in position mode: negative, at MEM_LIMIT, legal. -/
theorem test_witness_InputOperandByMode_position :
    ([load [4, -1], loadLimit 4 [4, 4], loadLimit 4 [4, 3]].map fun s =>
        (parameterAtOne s, decide (s.mem.read 1 < 0), admits s.cfg (s.mem.read 1).toNat)) =
      [(true, true, true), (true, false, false), (true, false, true)] := by decide

/-- The last clause, with an empty queue and, T-I7, one that is not; the others are met as those of
InputOperandByMode, of which they are the same conditions. -/
theorem test_witness_OutputOperandByMode :
    resolveOut (load [3, -1]) 1 .position = .error ⟨.negativeAddress, some (-1)⟩ ∧
    resolveOut { load [3, -1] with inq := [1] } 1 .position = .error ⟨.negativeAddress, some (-1)⟩ ∧
    resolveOut (load [3, 0]) 1 .position = .ok 0 ∧
    resolveOut (loadLimit 4 [3, 4]) 1 .position = .error ⟨.addressLimit, some 4⟩ := by decide

/-- T-I7: the value stays in the queue. -/
theorem test_inp_fault_keeps_queue :
    faultOf (after { load [3, -1, 99] with inq := [1] }) = some (2, 0, some 3, some (-1)) ∧
    (after { load [3, -1, 99] with inq := [1] }).inq = [1] := by decide

/-- T-I13: the log stays empty. -/
theorem test_out_fault :
    faultOf (after (load [4, -3, 99])) = some (2, 0, some 4, some (-3)) ∧
    (after (load [4, -3, 99])).outlog = [] := by decide

/-- The first, the second and the output operand at fault. -/
theorem test_witness_FirstFaultDecides_operands :
    resolveIn (load [1, -1, -2, -3]) 1 .position = .error ⟨.negativeAddress, some (-1)⟩ ∧
    (resolveIn (load [1, 0, -2, -3]) 1 .position = .ok 1 ∧
      resolveIn (load [1, 0, -2, -3]) 2 .position = .error ⟨.negativeAddress, some (-2)⟩) ∧
    (resolveIn (load [1, 0, 0, -3]) 1 .position = .ok 1 ∧
      resolveIn (load [1, 0, 0, -3]) 2 .position = .ok 1 ∧
      resolveOut (load [1, 0, 0, -3]) 3 .position = .error ⟨.negativeAddress, some (-3)⟩) := by decide

/-- A state whose sum of operands, or product, is not representable. -/
def atTop : State :=
  { load64 [] with ip := 9223372036854775804, mem := [(9223372036854775804, 1101),
    (9223372036854775805, 9223372036854775807), (9223372036854775806, 2)] }

/-- The operands resolve; the sum, the product and the new `ip` are not representable; and, for the
last clause, the same place with a sum that is. -/
theorem test_witness_FirstFaultDecides_results :
    resolveIn atTop 1 .immediate = .ok 9223372036854775807 ∧ resolveIn atTop 2 .immediate = .ok 2 ∧
    resolveOut atTop 3 .position = .ok 0 ∧ fits atTop.cfg (9223372036854775807 + 2) = false ∧
    fits atTop.cfg (9223372036854775807 * 2) = false ∧ fits atTop.cfg (atTop.ip + 4) = false ∧
    (resolveIn { atTop with mem := [] } 1 .immediate = .ok 0 ∧ fits atTop.cfg (0 + 0) = true) := by decide

/-- The operand of Output, T-I13, of AdjustBase, T-S6, and the first and the second of a jump at fault. -/
theorem test_witness_FirstFaultDecides_one_and_two_operands :
    resolveIn (load [4, -3, 99]) 1 .position = .error ⟨.negativeAddress, some (-3)⟩ ∧
    resolveIn { load [209, -3, 99] with rb := 1 } 1 .relative = .error ⟨.negativeAddress, some (-2)⟩ ∧
    resolveIn (load [5, -1, -2]) 1 .position = .error ⟨.negativeAddress, some (-1)⟩ ∧
    (resolveIn (load [105, 1, -2]) 1 .immediate = .ok 1 ∧
      resolveIn (load [105, 1, -2]) 2 .position = .error ⟨.negativeAddress, some (-2)⟩) := by decide

/-- At the top of the word domain: Output's operand and Input's address resolve, `ip + 2` is not
representable, and the queue is not empty. -/
theorem test_witness_FirstFaultDecides_next_ip :
    resolveIn (movedTo (load64 []) 9223372036854775806) 1 .immediate = .ok 0 ∧
    resolveOut { movedTo (load64 []) 9223372036854775806 with inq := [7] } 1 .position = .ok 0 ∧
    ({ movedTo (load64 []) 9223372036854775806 with inq := [7] } : State).inq ≠ [] ∧
    fits (load64 []).cfg ((movedTo (load64 []) 9223372036854775806).ip + 2) = false := by decide

/-! ### Witnesses: what the instructions do -/

theorem test_witness_ArithmeticStoresExactResult :
    resolveIn (load [1101, 2, 3, 5]) 1 .immediate = .ok 2 ∧
    resolveIn (load [1101, 2, 3, 5]) 2 .immediate = .ok 3 ∧
    resolveOut (load [1101, 2, 3, 5]) 3 .position = .ok 5 ∧
    fits (load [1101, 2, 3, 5]).cfg ((load [1101, 2, 3, 5]).ip + 4) = true ∧
    fits (load [1101, 2, 3, 5]).cfg (2 + 3) = true ∧ fits (load [1101, 2, 3, 5]).cfg (2 * 3) = true := by
  decide

/-- Operands below, equal and above. -/
theorem test_witness_ComparisonStoresTruth :
    ([(-1, 0), (5, 5), (5, 3)].all fun p =>
      decide (resolveIn (load [1107, p.1, p.2, 9]) 1 .immediate = .ok p.1 ∧
        resolveIn (load [1107, p.1, p.2, 9]) 2 .immediate = .ok p.2 ∧
        resolveOut (load [1107, p.1, p.2, 9]) 3 .position = .ok 9 ∧
        fits (load [1107, p.1, p.2, 9]).cfg 4 = true)) = true := by decide

theorem test_witness_InputConsumesHead :
    resolveOut { load [3, 3] with inq := [7, 8] } 1 .position = .ok 3 ∧
    ({ load [3, 3] with inq := [7, 8] } : State).inq = 7 :: [8] ∧ fits (load [3, 3]).cfg 2 = true := by decide

theorem test_witness_SuspensionChangesLastopAlone :
    Running (load [3, 3]) ∧ fetchDecode (load [3, 3]) = .ok (.inp .position) ∧
    resolveOut (load [3, 3]) 1 .position = .ok 3 ∧ (load [3, 3]).inq = [] ∧
    fits (load [3, 3]).cfg ((load [3, 3]).ip + 2) = true := by decide

theorem test_witness_OutputAppendsAndForwards :
    resolveIn (load [104, 8]) 1 .immediate = .ok 8 ∧ fits (load [104, 8]).cfg 2 = true := by decide

/-- A condition that is 0 and one that is not; `ip + 3` representable and not. -/
theorem test_witness_JumpsSetIp :
    (resolveIn (load [1105, 0, 7]) 1 .immediate = .ok 0 ∧ resolveIn (load [1105, 0, 7]) 2 .immediate = .ok 7 ∧
      fits (load [1105, 0, 7]).cfg 3 = true) ∧ resolveIn (load [1105, -1, 7]) 1 .immediate = .ok (-1) ∧
    (fits atTop.cfg ({ atTop with ip := 9223372036854775805, mem := [] }.ip + 3) = false ∧
      resolveIn { atTop with ip := 9223372036854775805, mem := [] } 1 .immediate = .ok 0 ∧
      resolveIn { atTop with ip := 9223372036854775805, mem := [] } 2 .immediate = .ok 0) ∧
    resolveIn { atTop with ip := 9223372036854775805, mem := [(9223372036854775806, 4)] } 1 .immediate =
      .ok 4 := by decide

/-- A negative target, and one whose cell is 0, for each of the two jumps. -/
theorem test_witness_JumpTargetFaultsAtNextFetch :
    (Running (load [1105, 1, -4]) ∧ fetchDecode (load [1105, 1, -4]) = .ok (.jt .immediate .immediate) ∧
      resolveIn (load [1105, 1, -4]) 1 .immediate = .ok 1 ∧
      resolveIn (load [1105, 1, -4]) 2 .immediate = .ok (-4)) ∧
    (fetchDecode (load [1106, 0, 50]) = .ok (.jf .immediate .immediate) ∧
      resolveIn (load [1106, 0, 50]) 1 .immediate = .ok 0 ∧
      resolveIn (load [1106, 0, 50]) 2 .immediate = .ok 50 ∧
      admits (load [1106, 0, 50]).cfg 50 = true ∧ (load [1106, 0, 50]).mem.read 50 = 0) := by decide

/-- Both sums representable; the new `rb` not; only the new `ip` not. -/
theorem test_witness_AdjustBaseAddsOperand :
    (resolveIn (load [109, 1]) 1 .immediate = .ok 1 ∧ fits (load [109, 1]).cfg (0 + 1) = true ∧
      fits (load [109, 1]).cfg (0 + 2) = true) ∧
    (resolveIn { load64 [109, 1] with rb := 9223372036854775807 } 1 .immediate = .ok 1 ∧
      fits (load64 [109, 1]).cfg (9223372036854775807 + 1) = false) ∧
    (resolveIn { atTop with ip := 9223372036854775806, mem := [] } 1 .immediate = .ok 0 ∧
      fits atTop.cfg (0 + 0) = true ∧ fits atTop.cfg (9223372036854775806 + 2) = false) := by decide

theorem test_witness_HaltStopsWithoutAdvancing :
    Running (load [99]) ∧ fetchDecode (load [99]) = .ok .hlt := by decide

/-- T-A19: the sum is the next instruction's word. -/
theorem test_witness_StoreIsFetchedNext :
    Running (load [1101, 1, 1, 4, 0]) ∧
    fetchDecode (load [1101, 1, 1, 4, 0]) = .ok (.add .immediate .immediate .position) ∧
    resolveIn (load [1101, 1, 1, 4, 0]) 1 .immediate = .ok 1 ∧
    resolveIn (load [1101, 1, 1, 4, 0]) 2 .immediate = .ok 1 ∧
    resolveOut (load [1101, 1, 1, 4, 0]) 3 .position = .ok 4 ∧
    (load [1101, 1, 1, 4, 0]).ip + 4 = ((4 : Nat) : Int) ∧
    decode (load [1101, 1, 1, 4, 0]).cfg (1 + 1) = .ok (.mul .position .position .position) := by decide

/-! ### Witnesses: frames, and rules about every step -/

/-- A store, with an address that is not the one stored to; and a store that faults. -/
theorem test_witness_StoringFrame :
    (exec (.add .immediate .immediate .position) (load [1101, 2, 3, 5]) =
      .next (after (load [1101, 2, 3, 5])) ∧ resolveOut (load [1101, 2, 3, 5]) 3 .position ≠ .ok 6) ∧
    exec (.add .immediate .immediate .position) (load [1101, 2, 3, -5]) =
      .next (after (load [1101, 2, 3, -5])) := ⟨⟨rfl, by decide⟩, rfl⟩

/-- An Input that completes, with another address, and one that suspends. -/
theorem test_witness_InputFrame :
    (exec (.inp .position) { load [3, 3] with inq := [7] } = .next (after { load [3, 3] with inq := [7] }) ∧
      resolveOut { load [3, 3] with inq := [7] } 1 .position ≠ .ok 4) ∧
    (exec (.inp .position) (load [3, 3]) = .next (after (load [3, 3])) ∧ (load [3, 3]).inq = []) :=
  ⟨⟨rfl, by decide⟩, rfl, rfl⟩

/-- Each of the five kinds, without a pipe. -/
theorem test_witness_NonStoringFrame :
    exec (.out .immediate) (load [104, 8]) = .next (after (load [104, 8])) ∧
    exec (.jt .immediate .immediate) (load [1105, 1, 7]) = .next (after (load [1105, 1, 7])) ∧
    exec (.jf .immediate .immediate) (load [1106, 1, 7]) = .next (after (load [1106, 1, 7])) ∧
    exec (.arb .immediate) (load [109, 1]) = .next (after (load [109, 1])) ∧
    exec .hlt (load [99]) = .next (after (load [99])) ∧
    ((load [104, 8]).pipe = none ∧ (load [104, 8]).pipe ≠ some (load [104, 8]).self) :=
  ⟨rfl, rfl, rfl, rfl, rfl, by decide⟩

/-- The four outcomes: executed, suspended, halted and fault. -/
theorem test_witness_StepMovesIpByTable :
    [load [1105, 0, 7], load [3, 3], after (load [99]), load [0]].map (fun s => (stepStatus s (after s)).code) =
      [0, 1, 2, 3] ∧
    step (load [1105, 0, 7]) = .next (after (load [1105, 0, 7])) ∧
    step (load [3, 3]) = .next (after (load [3, 3])) := ⟨by decide, rfl, rfl⟩

/-- A step that faults, one of a halted instance, one that executes, one that suspends. -/
theorem test_witness_LastopRecordsOutcome :
    ((load [0]).fault = none ∧ (after (load [0])).fault ≠ none) ∧
    ((after (load [99])).fault = none ∧ (after (load [99])).halted = true) ∧
    ((after (load [109, 1])).fault = none ∧ fetchDecode (load [109, 1]) = .ok (.arb .immediate)) ∧
    ((after (load [3, 3])).fault = none ∧ fetchDecode (load [3, 3]) = .ok (.inp .position) ∧
      (load [3, 3]).inq = []) := by decide

/-- A queue kept, shortened and lengthened. -/
theorem test_witness_QueueIsFirstInFirstOut :
    step { load [3, 3] with inq := [7] } = .next (after { load [3, 3] with inq := [7] }) ∧
    step { load [104, 7] with pipe := some 0 } = .next (after { load [104, 7] with pipe := some 0 }) ∧
    (after { load [104, 7] with pipe := some 0 }).inq = [7] := ⟨rfl, rfl, by decide⟩

/-- P5: an instance of identity 0 piped into one of identity 1. -/
def joined : State :=
  { load [104, 42, 99] with pipe := some 1, peers := [(1, { Instance.reset with mem := Memory.image [3, 9, 99] })] }

theorem test_witness_PipeKeepsOutputOrder :
    joined.pipe = some 1 ∧ 1 ≠ joined.self ∧
    joined.instanceAt 1 = some { Instance.reset with mem := Memory.image [3, 9, 99] } ∧
    (stepTimes 2 joined).outlog = [42] := by decide

theorem test_witness_StepTouchesOnlyPipeTarget :
    step joined = .next (after joined) ∧ 1 ≠ joined.self ∧ joined.pipe = some 1 := ⟨rfl, by decide, rfl⟩

/-! ### Witnesses: invariants -/

theorem test_reset_good : State.reset.Good := by
  constructor <;> first | decide | skip
  · constructor <;> decide
  · intro t ht; simp [State.reset, Instance.reset] at ht

theorem test_witness_StepKeepsGood : State.reset.Good ∧ step State.reset = .next (after State.reset) :=
  ⟨test_reset_good, rfl⟩

/-- An import, whose snapshot is good, and an action that is none. -/
theorem test_witness_HostActionsKeepGood :
    State.reset.Good ∧
    (∀ target snap, Action.call 0 (.importState Instance.reset.snapshot) = .call target (.importState snap) →
      snap.Good State.reset.cfg) ∧
    (∀ target snap, Action.construct 1 [3, 9, 99] [5] = .call target (.importState snap) →
      snap.Good State.reset.cfg) := by
  refine ⟨test_reset_good, fun target snap h => ?_, fun target snap h => by cases h⟩
  cases h
  exact test_reset_good.own_good

theorem test_witness_CanonicalMemoryIsItsReads :
    Memory.wf [(3, 7), (9, -1)] = true ∧ Memory.read [(3, 7), (9, -1)] 4 = 0 := by decide

/-! ### Witnesses: the host interface -/

/-- Each ground on which `construct` refuses, at its bound, and a program it takes. -/
theorem test_witness_ConstructMeetsReset :
    construct ⟨some 64, none, .fault⟩ [9223372036854775808] [] = none ∧
    construct ⟨some 64, none, .fault⟩ [] [-9223372036854775809] = none ∧
    construct ⟨none, some 2, .fault⟩ [1, 2, 3] [] = none ∧
    (construct ⟨some 64, some 2, .fault⟩ [9223372036854775807, 0] [-9223372036854775808]).isSome = true := by
  decide

theorem test_witness_EmptyProgramFaults :
    configValid Config.standard = true ∧ configValid ⟨some 64, some 1, .ignore⟩ = true ∧
    configValid ⟨some 63, none, .fault⟩ = false ∧ configValid ⟨none, some 0, .fault⟩ = false := by decide

theorem test_witness_AppendInputIsLegalInEveryState :
    fits (load64 []).cfg 9223372036854775807 = true ∧ fits (load64 []).cfg 9223372036854775808 = false := by
  decide

theorem test_witness_DrainOldestTruncateNewest :
    ({ load [] with outlog := [1, 2, 3] } : State).outlog = [1, 2] ++ [3] ∧
    ({ load [] with outlog := [1, 2, 3] } : State).outlog.length < 4 := by decide

/-- The four answers: faulted, halted, INVALID and a kind. -/
theorem test_witness_PeekForetellsStep :
    [after (load [0]), after (load [99]), load [50], load [303]].map peek =
      [.faulted, .halted, .invalid, .kind .inp] ∧
    step (load [303]) = .next (after (load [303])) := ⟨by decide, rfl⟩

/-- V6: into an instance with another program, another identity and no pipe. -/
theorem test_witness_SnapshotRoundTrip :
    ({ load [99] with self := 4 } : State).cfg = joined.cfg ∧
    (({ load [99] with self := 4 } : State).pipe = some ({ load [99] with self := 4 } : State).self ↔
      joined.pipe = some joined.self) := by decide

theorem test_witness_PipeIntoRedirectsLaterOutputs :
    joined.knows 1 = true ∧ joined.knows 2 = false ∧ 1 ≠ joined.self ∧
    joined.instanceAt 1 = some { Instance.reset with mem := Memory.image [3, 9, 99] } ∧
    resolveIn joined 1 .immediate = .ok 42 ∧ fits joined.cfg (joined.ip + 2) = true := by decide

theorem test_witness_TurnChangesNoInstance :
    joined.focus 2 = none ∧ (joined.focus 1).isSome = true ∧ (joined.focus 0).isSome = true := by decide

/-- Two instances that pipe each into itself. -/
def apart : State :=
  { load [104, 42, 99] with
    pipe := some 0
    peers := [(1, { Instance.reset with mem := Memory.image [104, 5], pipe := some 1 })] }

theorem test_witness_IndependentStepsCommute :
    apart.instanceAt 0 = some apart.toInstance ∧
    apart.instanceAt 1 = some { Instance.reset with mem := Memory.image [104, 5], pipe := some 1 } ∧
    apart.pipe ≠ some 1 ∧ (some 1 : Option InstanceId) ≠ some 0 ∧
    (apart.pipe = none ∨ apart.pipe ≠ some 1) := by decide

/-- The four outcome states. -/
theorem test_witness_WaitingExactlyWhenStepSuspends :
    [load [3, 3], after (load [99]), load [0], after (load [0])].map runState =
      [.waiting, .halted, .runnable, .faulted] ∧ step (load [3, 3]) = .next (after (load [3, 3])) :=
  ⟨by decide, rfl⟩

/-- P5: two instances joined by a pipe, with a third that nothing joins to them and that is not part of
their run. A waits, then B waits for A; fed and stepped, both halt. -/
def twoOfThree : State :=
  actAll State.reset [.construct 1 [3, 9, 1002, 9, 2, 9, 4, 9, 99, 0] [],
    .construct 2 [3, 9, 1001, 9, 1, 9, 4, 9, 99, 0] [], .call 1 (.pipeInto 2)]

/-- P5's steps 5 to 9, after its step 4. -/
def twoOfThreeRun : State :=
  stepAll (act twoOfThree (.call 1 (.appendInput 21))).1 [1, 1, 1, 1, 2, 2, 2, 2]

theorem test_piped_run :
    twoOfThree.joinedWith 2 = [1, 2] ∧ runStuck twoOfThree [1, 2] = true ∧
    runSucceeded twoOfThreeRun [1, 2] = true ∧ twoOfThreeRun.outcomeOf 0 = some .runnable := by decide

/-- P5's end: the logs. -/
theorem test_piped_run_results :
    (runResults twoOfThreeRun [1, 2]).map (fun r => r.map Prod.fst) = [some [42], some [43]] := by decide

/-- One instance that a program was booted into, its run ended by Halt; by a fault; by no input. -/
theorem test_run_of_one :
    runSucceeded (stepAll (act State.reset (.construct 1 [99] [])).1 [1]) [1] = true ∧
    runFailed (stepAll (act State.reset (.construct 1 [50] [])).1 [1]) [1] = true ∧
    runStuck (act State.reset (.construct 1 [3, 3] [])).1 [1] = true ∧
    runEnded (act State.reset (.construct 1 [50] [])).1 [1] = false := by decide

/-- An ended run, a schedule of its instances, and an instance in it. -/
theorem test_witness_EndedRunStaysEnded :
    runEnded twoOfThree [1, 2] = true ∧ (∀ id ∈ [2, 1, 2], id ∈ [1, 2]) ∧
    (twoOfThree.instanceAt 2).isSome = true := by decide

/-- A new identity and a program taken; an identity in use; a program refused. -/
theorem test_witness_ConstructAddsInstance :
    joined.knows 2 = false ∧ (construct joined.cfg [99] [4]).isSome = true ∧ joined.knows 1 = true ∧
    construct (load64 []).cfg [9223372036854775808] [] = none := by decide

/-- A core line with a label, a pseudo-instruction, data, and a line that does not assemble. -/
theorem test_witness_AssembledLineDecodes_words :
    (AsmBody.core .inp [.position (.label "n")]).words [("n", 16)] = some [3, 16] ∧
    (AsmBody.mov (.immediate (.number 1)) (.position (.number 24))).words [] = some [1101, 1, 0, 24] ∧
    (AsmBody.word [.label "n", .number 5]).words [("n", 16)] = some [16, 5] ∧
    (AsmBody.core .inp [.immediate (.number 3)]).words [] = none := by decide

/-- Operands, as many as the kind has parameters, whose output is not immediate and whose values are
defined; a label on the line after another; a value that resolves. -/
theorem test_witness_AssembledLineDecodes_operands :
    ([AsmOperand.immediate (.number 1), .immediate (.number 0), .position (.number 24)].length =
      Kind.add.arity ∧
      [AsmOperand.immediate (.number 1), .immediate (.number 0), .position (.number 24)].getLast? =
        some (.position (.number 24)) ∧
      [AsmOperand.immediate (.number 1), .immediate (.number 0), .position (.number 24)].map
        (AsmOperand.resolve []) = [1, 0, 24].map some) ∧
    ((AsmLine.mk (some "x") none).label = some "x" ∧
      ∀ l ∈ [AsmLine.mk none (some .nop)], l.label ≠ some "x") ∧
    (AsmValue.label "n").resolve [("n", 16)] = some 16 := by decide

/-- `mov`, `neg`, `jmp` and `nop` in memory. -/
theorem test_witness_PseudoInstructionsDoAsTabled :
    (resolveIn (load [1101, 5, 0, 9]) 1 .immediate = .ok 5 ∧
      resolveOut (load [1101, 5, 0, 9]) 3 .position = .ok 9 ∧ paramWord (load [1101, 5, 0, 9]) 2 = .ok 0) ∧
    (paramWord (load [1102, 5, -1, 9]) 2 = .ok (-1) ∧ fits (load []).cfg (-5) = true) ∧
    (paramWord (load [1105, 1, 6]) 1 = .ok 1 ∧ resolveIn (load [1105, 1, 6]) 2 .immediate = .ok 6) ∧
    (paramWord (load [109, 0]) 1 = .ok 0 ∧ fits (load []).cfg 0 = true) := by decide

end Sys2Proof.Tests
end

/-! PROOFS. Scope (00_scope): every step keeps the state good, and what a step can raise. -/

/-! ### The value domain -/

namespace Sys2Proof.Machine

/-- 0 is representable under every value of WORD_BITS. -/
@[simp] theorem fits_zero (c : Config) : fits c 0 = true := by
  cases h : c.wordBits with
  | none => simp [fits, h]
  | some n =>
    have hpow : 1 ≤ 2 ^ (n - 1) := Nat.one_le_two_pow
    simp only [fits, h, Bool.and_eq_true, decide_eq_true_eq]
    omega

/-- 1 is representable under every permitted value of WORD_BITS (00_scope R5). -/
theorem fits_one {c : Config} (hc : configValid c = true) : fits c 1 = true := by
  cases h : c.wordBits with
  | none => simp [fits, h]
  | some n =>
    simp only [configValid, h, Bool.and_eq_true, decide_eq_true_eq] at hc
    have hpow : 2 ^ 1 ≤ 2 ^ (n - 1) := Nat.pow_le_pow_right (by omega) (by omega)
    simp only [fits, h, Bool.and_eq_true, decide_eq_true_eq]
    omega

/-- The result of a comparison is representable (43_compare R160). -/
theorem fits_truthWord {c : Config} (hc : configValid c = true) (b : Bool) :
    fits c (truthWord b) = true := by
  cases b with
  | false => exact fits_zero c
  | true => exact fits_one hc

theorem cellsInDomain_iff (c : Config) (m : Memory) :
    cellsInDomain c m = true ↔ ∀ e ∈ m, admits c e.1 = true ∧ fits c e.2 = true := by
  simp [cellsInDomain, List.all_eq_true]

/-- A word read from memory in the value domain is representable, a cell never written included. -/
theorem fits_read {c : Config} {m : Memory} (h : cellsInDomain c m = true) (a : Nat) :
    fits c (m.read a) = true := by
  unfold Memory.read
  cases hf : findKey m a with
  | none => exact fits_zero c
  | some v => exact ((cellsInDomain_iff c m).1 h _ (mem_of_findKey hf)).2

/-- A write of a representable value below MEM_LIMIT keeps the memory in the value domain. -/
theorem cellsInDomain_write {c : Config} {m : Memory} {a : Nat} {v : Int}
    (h : cellsInDomain c m = true) (ha : admits c a = true) (hv : fits c v = true) :
    cellsInDomain c (m.write a v) = true := by
  rw [cellsInDomain_iff] at h ⊢
  intro e he
  rcases Memory.mem_write he with ⟨rfl, -⟩ | he
  · exact ⟨ha, hv⟩
  · exact h e he

theorem fits_of_memRead {s : State} {a v : Int} (hm : cellsInDomain s.cfg s.mem = true)
    (h : memRead s a = .ok v) : fits s.cfg v = true := by
  obtain ⟨n, -, rfl⟩ := (memRead_ok_iff s a v).1 h
  exact fits_read hm n

theorem fits_of_paramWord {s : State} {j : Nat} {p : Int} (hm : cellsInDomain s.cfg s.mem = true)
    (h : paramWord s j = .ok p) : fits s.cfg p = true := by
  obtain ⟨a, -, h⟩ := (bind_ok_iff _ _ _).1 h
  exact fits_of_memRead hm h

/-- A resolved input operand is representable. -/
theorem fits_of_resolveIn {s : State} {j : Nat} {m : Mode} {v : Int}
    (hm : cellsInDomain s.cfg s.mem = true) (h : resolveIn s j m = .ok v) : fits s.cfg v = true := by
  obtain ⟨p, hp, h⟩ := (resolveIn_ok_iff s j m v).1 h
  cases m with
  | position => exact fits_of_memRead hm h
  | immediate => exact h ▸ fits_of_paramWord hm hp
  | relative => exact fits_of_memRead hm h.2

end Sys2Proof.Machine

/-! ### The changes of state keep it good -/

namespace Sys2Proof.Machine

theorem all_append_singleton {c : Config} {l : List Int} {v : Int} (hl : l.all (fits c) = true)
    (hv : fits c v = true) : (l ++ [v]).all (fits c) = true := by simp [hl, hv]

/-- A representable value at the tail of the queue keeps a record good, whatever else it holds. -/
theorem Instance.Good.enqueue {c : Config} {m : Instance} {v : Int} (h : m.Good c)
    (hv : fits c v = true) : (m.enqueue v).Good c :=
  { h with inputs_in_domain := all_append_singleton h.inputs_in_domain hv }

/-- The identities known are the own one and the peers'. -/
theorem State.knows_iff (s : State) (t : InstanceId) :
    s.knows t = true ↔ t = s.self ∨ (findKey s.peers t).isSome = true := by
  unfold State.knows State.instanceAt
  split <;> simp_all

/-- A good record with the same pipe, in place of the own one, keeps the group good. -/
theorem State.Good.withOwn {s : State} {m : Instance} (h : s.Good) (hm : m.Good s.cfg)
    (hp : m.pipe = s.pipe) : State.Good { s with toInstance := m } := by
  have hknows (t : InstanceId) (ht : s.knows t = true) :
      State.knows { s with toInstance := m } t = true :=
    (State.knows_iff _ t).2 ((State.knows_iff s t).1 ht)
  exact
    { h with
      own_good := hm
      own_pipe_known := fun t ht => hknows t (h.own_pipe_known t (hp ▸ ht))
      peer_pipes_known := fun p hmem t ht => hknows t (h.peer_pipes_known p hmem t ht) }

/-- So does a change of the peers that keeps their identities, their pipes and each of them good. -/
theorem State.Good.mapPeers {s : State} {f : InstanceId → Instance → Instance} (h : s.Good)
    (hgood : ∀ k m, m.Good s.cfg → (f k m).Good s.cfg) (hpipe : ∀ k m, (f k m).pipe = m.pipe) :
    State.Good { s with peers := s.peers.map fun p => (p.1, f p.1 p.2) } := by
  have hknows (t : InstanceId) (ht : s.knows t = true) :
      State.knows { s with peers := s.peers.map fun p => (p.1, f p.1 p.2) } t = true := by
    rw [State.knows_iff] at ht ⊢
    simpa [findKey_map] using ht
  exact
    { parameters_valid := h.parameters_valid
      own_good := h.own_good
      peers_good := by
        intro p hmem
        obtain ⟨q, hq, rfl⟩ := List.mem_map.1 hmem
        exact hgood _ _ (h.peers_good q hq)
      peers_sorted := by
        rw [keysRise_map _ (fun p => (p.1, f p.1 p.2)) fun _ => rfl]
        exact h.peers_sorted
      self_apart := by simp [findKey_map, h.self_apart]
      own_pipe_known := fun t ht => hknows t (h.own_pipe_known t ht)
      peer_pipes_known := by
        intro p hmem t ht
        obtain ⟨q, hq, rfl⟩ := List.mem_map.1 hmem
        exact hknows t (h.peer_pipes_known q hq t (hpipe _ _ ▸ ht)) }

section Changes
variable {s : State} (h : s.Good)
include h

theorem State.Good.storeCell {d : Nat} {v : Int} (hd : admits s.cfg d = true)
    (hv : fits s.cfg v = true) : (s.storeCell d v).Good :=
  h.withOwn (m := { s.toInstance with mem := s.mem.write d v })
    { h.own_good with
      memory_canonical := Memory.wf_write _ _ _ h.own_good.memory_canonical
      cells_in_domain := cellsInDomain_write h.own_good.cells_in_domain hd hv } rfl

theorem State.Good.setBase {v : Int} (hv : fits s.cfg v = true) : (s.setBase v).Good :=
  h.withOwn (m := { s.toInstance with rb := v }) { h.own_good with rb_in_domain := hv } rfl

theorem State.Good.dropInput : s.dropInput.Good :=
  h.withOwn (m := { s.toInstance with inq := s.inq.tail })
    { h.own_good with
      inputs_in_domain := List.all_eq_true.2 fun v hv =>
        List.all_eq_true.1 h.own_good.inputs_in_domain v (List.mem_of_mem_tail hv) } rfl

theorem State.Good.logOutput {v : Int} (hv : fits s.cfg v = true) : (s.logOutput v).Good :=
  h.withOwn (m := { s.toInstance with outlog := s.outlog ++ [v] })
    { h.own_good with
      outputs_in_domain := all_append_singleton h.own_good.outputs_in_domain hv } rfl

/-- Delivery reaches the own queue or one peer's. -/
theorem State.Good.deliver {v : Int} (hv : fits s.cfg v = true) (t : InstanceId) :
    (s.deliver t v).Good := by
  unfold State.deliver
  split
  · exact h.withOwn (h.own_good.enqueue hv) rfl
  · have hpeers := h.mapPeers (f := fun k m => if k = t then m.enqueue v else m)
      (fun k m hm => by split; exacts [hm.enqueue hv, hm]) (fun k m => by split <;> rfl)
    convert hpeers using 4
    split <;> rfl

theorem State.Good.forward {v : Int} (hv : fits s.cfg v = true) : (s.forward v).Good := by
  unfold State.forward
  split
  · exact h
  · exact h.deliver hv _

/-- An instruction ends well where the new `ip` is representable: while running there is neither a
halted bit nor a record for the new `lastop` and `ip` to disagree with. -/
theorem State.Good.retire {ip' : Int} (hf : s.fault = none) (hh : s.halted = false)
    (hip : fits s.cfg ip' = true) (k : Kind) : (s.retire k ip').Good :=
  h.withOwn (m := { s.toInstance with ip := ip', lastop := .executed k })
    { h.own_good with
      ip_in_domain := hip
      halted_clean := fun hhalt => by simp [hh] at hhalt
      fault_at_ip := fun r hr => by simp [hf] at hr } rfl

theorem State.Good.suspend (hh : s.halted = false) : s.suspend.Good :=
  h.withOwn (m := { s.toInstance with lastop := .suspended })
    { h.own_good with halted_clean := fun hhalt => by simp [hh] at hhalt } rfl

theorem State.Good.halt (hf : s.fault = none) : s.halt.Good :=
  h.withOwn (m := { s.toInstance with halted := true, lastop := .executed .hlt })
    { h.own_good with halted_clean := fun _ => ⟨hf, rfl⟩ } rfl

/-- Fault entry records the `ip` it stops at (60_exceptions R201, R202). -/
theorem State.Good.takeFault (hh : s.halted = false) (e : Trap) : (s.takeFault e).Good :=
  h.withOwn (m := { s.toInstance with fault := some (faultRecord s e) })
    { h.own_good with
      halted_clean := fun hhalt => by simp [hh] at hhalt
      fault_at_ip := fun r hr => by cases hr; rfl } rfl

end Changes

/-! ### Every step keeps the state good -/

/-- What an instruction does to a good running state leaves it good. -/
theorem Effect.keepsGood {i : Instr} {s t : State} (hx : Effect i s t) (h : s.Good)
    (hf : s.fault = none) (hh : s.halted = false) : t.Good := by
  have hval {j m v} (hv : resolveIn s j m = .ok v) : fits s.cfg v = true :=
    fits_of_resolveIn h.own_good.cells_in_domain hv
  have htruth (b : Bool) : fits s.cfg (truthWord b) = true := fits_truthWord h.parameters_valid b
  cases hx with
  | add ha hb hd hr hip => exact (h.storeCell (admits_of_resolveOut hd) hr).retire hf hh hip _
  | mul ha hb hd hr hip => exact (h.storeCell (admits_of_resolveOut hd) hr).retire hf hh hip _
  | lt ha hb hd hip =>
    exact (h.storeCell (admits_of_resolveOut hd) (htruth _)).retire hf hh hip _
  | eq ha hb hd hip =>
    exact (h.storeCell (admits_of_resolveOut hd) (htruth _)).retire hf hh hip _
  | suspends hd hq => exact h.suspend hh
  | @inp _ _ d v rest hd hq hip =>
    have hv : fits s.cfg v = true :=
      List.all_eq_true.1 h.own_good.inputs_in_domain v (by simp [hq])
    exact (h.dropInput.storeCell (admits_of_resolveOut hd) hv).retire hf hh hip _
  | @out _ _ a ha hip =>
    exact ((h.logOutput (hval ha)).forward (by simpa using hval ha)).retire (by simpa using hf)
      (by simpa using hh) (by simpa using hip) _
  | jtTaken hc hg hne => exact h.retire hf hh (hval hg) _
  | jtFallsThrough hc hg hip => exact h.retire hf hh hip _
  | jfTaken hc hg => exact h.retire hf hh (hval hg) _
  | jfFallsThrough hc hg hne hip => exact h.retire hf hh hip _
  | arb ha hr hip => exact (h.setBase hr).retire hf hh hip _
  | hlt => exact h.halt hf

/-- Settles O42: a step does nothing, takes a fault, or has the effect of an instruction, and each keeps
the state good. -/
theorem stepKeepsGood : Obligations.StepKeepsGood := by
  intro s t h hstep
  rcases step_effect hstep with ⟨-, rfl⟩ | ⟨-, -, rfl⟩ | ⟨-, hh, e, rfl⟩ | ⟨hf, hh, i, -, hx⟩
  · exact h
  · exact h
  · exact h.takeFault hh e
  · exact hx.keepsGood h hf hh

end Sys2Proof.Machine

/-! ### What a step can raise -/

namespace Sys2Proof.Machine

/-- The traps a step of state `s` can raise, one constructor for each row of the table of 60_exceptions
R200, with what the row says of the cause and its `info`. -/
inductive Raisable (s : State) : Trap → Prop where
  | negativeWord {w} : fetchedWord s = some w → w < 0 → Raisable s ⟨.invalidOpcode, none⟩
  | unknownOpcode {w} : fetchedWord s = some w → 0 ≤ w →
      Raisable s ⟨.invalidOpcode, some (w % 100)⟩
  | negativeAddress {a} : a < 0 → Raisable s ⟨.negativeAddress, some a⟩
  | invalidOutputMode : Raisable s ⟨.invalidOutputMode, none⟩
  | invalidMode : Raisable s ⟨.invalidMode, none⟩
  | wordOverflow {v} : fits s.cfg v = false → Raisable s ⟨.wordOverflow, some v⟩
  | addressLimit {a} : 0 ≤ a → admits s.cfg a.toNat = false →
      Raisable s ⟨.addressLimit, some a⟩

/-- A sequence of checks in state `s` that answers only values with `Q` and raises only what a step of
`s` can raise. -/
def Checked {α : Type} (s : State) (Q : α → Prop) : Except Trap α → Prop
  | .ok a => Q a
  | .error e => Raisable s e

theorem Checked.pure {α : Type} {s : State} {Q : α → Prop} {a : α} (h : Q a) :
    Checked s Q (pure a) := h

theorem Checked.of_error {α : Type} {s : State} {x : Except Trap α}
    (h : ∀ e, x = .error e → Raisable s e) : Checked s (fun _ => True) x := by
  cases x with
  | ok a => trivial
  | error e => exact h e rfl

theorem Checked.bind {α β : Type} {s : State} {P : α → Prop} {Q : β → Prop} {x : Except Trap α}
    {f : α → Except Trap β} (hx : Checked s P x) (hf : ∀ a, P a → Checked s Q (f a)) :
    Checked s Q (x >>= f) := by
  cases x with
  | ok a => exact hf a hx
  | error e => exact hx

/-! ### The checks -/

theorem rep_checked (s : State) (v : Int) : Checked s (fun _ => True) (rep s.cfg v) :=
  .of_error fun e he => by
    obtain ⟨hv, rfl⟩ := (rep_error_iff _ _ _).1 he
    exact .wordOverflow hv

theorem checkAddress_checked (s : State) (a : Int) :
    Checked s (fun _ => True) (checkAddress s.cfg a) :=
  .of_error fun e he => by
    rcases (checkAddress_error_iff _ _ _).1 he with ⟨ha, rfl⟩ | ⟨ha, hl, rfl⟩
    · exact .negativeAddress ha
    · exact .addressLimit ha hl

theorem memRead_checked (s : State) (a : Int) : Checked s (fun _ => True) (memRead s a) :=
  (checkAddress_checked s a).bind fun _ _ => trivial

theorem paramWord_checked (s : State) (j : Nat) : Checked s (fun _ => True) (paramWord s j) :=
  (rep_checked s _).bind fun a _ => memRead_checked s a

theorem resolveIn_checked (s : State) (j : Nat) (m : Mode) :
    Checked s (fun _ => True) (resolveIn s j m) :=
  (paramWord_checked s j).bind fun p _ => by
    cases m with
    | position => exact memRead_checked s p
    | immediate => trivial
    | relative => exact (rep_checked s _).bind fun a _ => memRead_checked s a

theorem resolveOut_checked (s : State) (j : Nat) (m : Mode) :
    Checked s (fun _ => True) (resolveOut s j m) :=
  (paramWord_checked s j).bind fun p _ => by
    cases m with
    | position => exact checkAddress_checked s p
    | immediate => exact .invalidOutputMode
    | relative => exact (rep_checked s _).bind fun d _ => checkAddress_checked s d

/-- A word refused after its opcode was read has a bad mode digit or a bad output mode (30_encoding
R86). -/
theorem decodeKind_error {c : Config} {n : Nat} {k : Kind} {e : Trap}
    (h : decodeKind c n k = .error e) : e = ⟨.invalidMode, none⟩ ∨ e = ⟨.invalidOutputMode, none⟩ := by
  unfold decodeKind at h
  grind

/-- What the decode of the fetched word raises (R86). -/
theorem decode_raises {s : State} {w : Int} {e : Trap} (hw : fetchedWord s = some w)
    (h : decode s.cfg w = .error e) : Raisable s e := by
  rcases lt_or_ge w 0 with hneg | hpos
  · rw [decode_negative _ hneg] at h
    cases h
    exact .negativeWord hw hneg
  · obtain ⟨n, rfl⟩ := Int.eq_ofNat_of_zero_le hpos
    rw [decode_natCast] at h
    cases hk : kindOf (n % 100) with
    | none =>
      simp only [hk, Except.error.injEq] at h
      rw [← h]
      exact .unknownOpcode hw hpos
    | some k =>
      simp only [hk] at h
      rcases decodeKind_error h with rfl | rfl
      · exact .invalidMode
      · exact .invalidOutputMode

theorem fetchDecode_raises {s : State} {e : Trap} (h : fetchDecode s = .error e) : Raisable s e := by
  rcases (fetchDecode_error_iff s e).1 h with h | ⟨w, hw, h⟩
  · have hread := memRead_checked s s.ip
    rwa [h] at hread
  · exact decode_raises (fetchedWord_of_read hw) h

/-! ### The instructions -/

/-- The end of a step leaves the fault register alone, or takes one of the faults of R200. -/
def FaultsOnlyAsTabled (s t : State) : Prop :=
  t.fault = s.fault ∨ ∃ e, Raisable s e ∧ t = s.takeFault e

theorem conclude_checked {s t : State} {x : Except Trap State} (h : conclude s x = .next t)
    (hx : Checked s (fun u => u.fault = s.fault) x) : FaultsOnlyAsTabled s t := by
  rcases conclude_next h with rfl | ⟨e, rfl, rfl⟩
  · exact .inl hx
  · exact .inr ⟨e, hx, rfl⟩

theorem storeResult_faults {k : Kind} {f : Int → Int → Except Trap Int} {m1 m2 m3 : Mode}
    {s t : State} (h : storeResult k f m1 m2 m3 s = .next t)
    (hf : ∀ a b, Checked s (fun _ => True) (f a b)) : FaultsOnlyAsTabled s t :=
  conclude_checked h <|
    (resolveIn_checked s 1 m1).bind fun a _ => (resolveIn_checked s 2 m2).bind fun b _ =>
    (resolveOut_checked s 3 m3).bind fun _ _ => (hf a b).bind fun _ _ =>
    (rep_checked s _).bind fun _ _ => .pure rfl

theorem jumpWhen_faults {k : Kind} {taken : Int → Bool} {m1 m2 : Mode} {s t : State}
    (h : jumpWhen k taken m1 m2 s = .next t) : FaultsOnlyAsTabled s t :=
  conclude_checked h <|
    (resolveIn_checked s 1 m1).bind fun c _ => (resolveIn_checked s 2 m2).bind fun g _ => by
      split
      · exact .pure rfl
      · exact (rep_checked s _).bind fun _ _ => .pure rfl

theorem execInp_faults {m1 : Mode} {s t : State} (h : execInp m1 s = .next t) :
    FaultsOnlyAsTabled s t :=
  conclude_checked h <|
    (resolveOut_checked s 1 m1).bind fun d _ => by
      split
      · exact .pure rfl
      · exact (rep_checked s _).bind fun _ _ => .pure rfl

theorem execOut_faults {m1 : Mode} {s t : State} (h : execOut m1 s = .next t) :
    FaultsOnlyAsTabled s t :=
  conclude_checked h <|
    (resolveIn_checked s 1 m1).bind fun _ _ => (rep_checked s _).bind fun _ _ => .pure (by simp)

theorem execArb_faults {m1 : Mode} {s t : State} (h : execArb m1 s = .next t) :
    FaultsOnlyAsTabled s t :=
  conclude_checked h <|
    (resolveIn_checked s 1 m1).bind fun _ _ => (rep_checked s _).bind fun _ _ =>
    (rep_checked s _).bind fun _ _ => .pure rfl

theorem exec_faults {i : Instr} {s t : State} (h : exec i s = .next t) : FaultsOnlyAsTabled s t := by
  cases i with
  | add m1 m2 m3 => exact storeResult_faults h fun _ _ => rep_checked s _
  | mul m1 m2 m3 => exact storeResult_faults h fun _ _ => rep_checked s _
  | inp m1 => exact execInp_faults h
  | out m1 => exact execOut_faults h
  | jt m1 m2 => exact jumpWhen_faults h
  | jf m1 m2 => exact jumpWhen_faults h
  | lt m1 m2 m3 => exact storeResult_faults h fun _ _ => trivial
  | eq m1 m2 m3 => exact storeResult_faults h fun _ _ => trivial
  | arb m1 => exact execArb_faults h
  | hlt => exact conclude_checked (x := .ok s.halt) h rfl

theorem step_faults {s t : State} (h : step s = .next t) : FaultsOnlyAsTabled s t := by
  rcases step_next h with ⟨-, rfl⟩ | ⟨-, -, rfl⟩ | ⟨-, -, e, he, rfl⟩ | ⟨-, -, i, -, hx⟩
  · exact .inl rfl
  · exact .inl rfl
  · exact .inr ⟨e, fetchDecode_raises he, rfl⟩
  · exact exec_faults hx

/-- The record that a step sets is that of a trap which a step of the state can raise (60_exceptions
R200, R201). -/
theorem step_sets_record {s t : State} {r : FaultRecord} (hf : s.fault = none)
    (h : step s = .next t) (hr : t.fault = some r) : ∃ e, Raisable s e ∧ r = faultRecord s e := by
  rcases step_faults h with hkeep | ⟨e, he, rfl⟩
  · simp [hkeep, hf] at hr
  · exact ⟨e, he, by simpa [eq_comm] using hr⟩

/-! ### Unbounded parameters -/

theorem fits_of_unbounded {c : Config} (h : c.wordBits = none) (v : Int) : fits c v = true := by
  simp [fits, h]

theorem admits_of_unbounded {c : Config} (h : c.memLimit = none) (a : Nat) : admits c a = true := by
  simp [admits, h]

theorem Raisable.ne_wordOverflow {s : State} {e : Trap} (he : Raisable s e)
    (h : s.cfg.wordBits = none) : e.cause ≠ .wordOverflow := by
  cases he with
  | wordOverflow hv => simp [fits_of_unbounded h] at hv
  | _ => simp

theorem Raisable.ne_addressLimit {s : State} {e : Trap} (he : Raisable s e)
    (h : s.cfg.memLimit = none) : e.cause ≠ .addressLimit := by
  cases he with
  | addressLimit ha hl => simp [admits_of_unbounded h] at hl
  | _ => simp

/-- Settles O15: the record is that of a trap in the table of R200, and the rows of WordOverflow and
AddressLimit each need a bound that was exceeded. -/
theorem unboundedParametersNeverRaise : Obligations.UnboundedParametersNeverRaise := by
  intro s t r hf hstep hr
  obtain ⟨e, he, rfl⟩ := step_sets_record hf hstep hr
  exact ⟨he.ne_wordOverflow, he.ne_addressLimit⟩

end Sys2Proof.Machine

/-! PROOFS. The architectural state (10_state): the instruction pointer, `lastop`, the input queue and the
output log under every step. -/

/-! ### An effect is what its step does -/

namespace Sys2Proof.Machine

/-- The converse of `exec_next`: an instruction does whatever is its effect. -/
theorem Effect.exec_eq {i : Instr} {s t : State} (hx : Effect i s t) : exec i s = .next t := by
  cases hx with
  | add ha hb hd hr hip => exact storeResult_completes ha hb hd (rep_of_fits hr) hip
  | mul ha hb hd hr hip => exact storeResult_completes ha hb hd (rep_of_fits hr) hip
  | lt ha hb hd hip => exact storeResult_completes ha hb hd rfl hip
  | eq ha hb hd hip => exact storeResult_completes ha hb hd rfl hip
  | suspends hd hq => simp [exec, execInp, conclude, hd, hq]
  | inp hd hq hip => simp [exec, execInp, conclude, hd, hq, rep_of_fits hip]
  | out ha hip => simp [exec, execOut, conclude, ha, rep_of_fits hip]
  | jtTaken hc hg hne => simp [exec, execJt, jumpWhen, conclude, hc, hg, hne]
  | jtFallsThrough hc hg hip => simp [exec, execJt, jumpWhen, conclude, hc, hg, rep_of_fits hip]
  | jfTaken hc hg => simp [exec, execJf, jumpWhen, conclude, hc, hg]
  | jfFallsThrough hc hg hne hip =>
    simp [exec, execJf, jumpWhen, conclude, hc, hg, hne, rep_of_fits hip]
  | arb ha hr hip => simp [exec, execArb, conclude, ha, rep_of_fits hr, rep_of_fits hip]
  | hlt => rfl

/-- `lastop` after an effect: the kind, or the suspension of an Input with an empty queue (R27). -/
theorem Effect.lastop_eq {i : Instr} {s t : State} (hx : Effect i s t) :
    t.lastop = if i.kind = .inp ∧ s.inq = [] then .suspended else .executed i.kind := by
  cases hx with
  | suspends hd hq => simp [Instr.kind, hq]
  | inp hd hq hip => simp [Instr.kind, hq]
  | _ => simp [Instr.kind]

/-! ### The status a step returns -/

theorem stepStatus_of_faulted {s : State} (hf : s.fault ≠ none) (t : State) :
    ∃ r, stepStatus s t = .fault r := by
  obtain ⟨r, hr⟩ := Option.ne_none_iff_exists'.1 hf
  exact ⟨r, by simp [stepStatus, hr]⟩

theorem stepStatus_of_halted {s : State} (hf : s.fault = none) (hh : s.halted = true) (t : State) :
    stepStatus s t = .halted := by simp [stepStatus, hf, hh]

theorem stepStatus_takeFault {s : State} (hf : s.fault = none) (hh : s.halted = false) (e : Trap) :
    stepStatus s (s.takeFault e) = .fault (faultRecord s e) := by simp [stepStatus, hf, hh]

/-- The status of a step without a fault names the kind that `lastop` records, or the suspension. -/
theorem Effect.stepStatus_eq {i : Instr} {s t : State} (hx : Effect i s t) (hf : s.fault = none)
    (hh : s.halted = false) :
    stepStatus s t = if i.kind = .inp ∧ s.inq = [] then .suspended else .executed i.kind := by
  simp only [stepStatus, hf, hh, hx.fault_eq, hx.lastop_eq, Bool.false_eq_true, if_false]
  split_ifs <;> rfl

/-- What the host sees of a step that fetches an instruction with the effect `t`. -/
theorem Effect.callStep_eq {i : Instr} {s t : State} (hx : Effect i s t) (hs : Running s)
    (hd : fetchDecode s = .ok i) :
    callStep s =
      (t, .status (if i.kind = .inp ∧ s.inq = [] then .suspended else .executed i.kind)) := by
  obtain ⟨hf, hh⟩ := hs
  have hstep : step s = .next t := by rw [step_running hf hh, hd]; exact hx.exec_eq
  rw [callStep_of_next hstep, hx.stepStatus_eq hf hh]

/-! ### Suspension -/

/-- A state that a step leaves as it is stays so over any number of steps. -/
theorem stepTimes_of_fixed {s : State} (h : (callStep s).1 = s) (n : Nat) : stepTimes n s = s := by
  induction n with
  | zero => rfl
  | succ n ih => rw [stepTimes, h, ih]

/-- Settles O25: suspension is the effect of an Input with an empty queue. It writes nothing that fetch or
operand resolution reads, so the suspended state suspends again, and with a value queued it has the effect
of the completed Input. -/
theorem suspensionChangesLastopAlone : Obligations.SuspensionChangesLastopAlone := by
  intro s m1 d hs hfd hd hq
  have hfirst : callStep s = (s.suspend, .status .suspended) := by
    simpa [Instr.kind, hq] using (Effect.suspends hd hq).callStep_eq hs hfd
  have hagain : (callStep s.suspend).1 = s.suspend := by
    rw [(Effect.suspends (s := s.suspend) hd hq).callStep_eq hs hfd]
    rfl
  refine ⟨hfirst, fun n => ?_, fun v rest hip => ?_⟩
  · rw [stepTimes, hfirst]
    exact stepTimes_of_fixed hagain n
  · exact (Effect.inp (s := { s with lastop := .suspended, inq := v :: rest }) hd rfl hip).callStep_eq
      hs hfd

/-! ### The instruction pointer -/

/-- Settles O35: a step that does nothing, faults or suspends keeps `ip`, and so does Halt; every other
effect ends in the `ip` that the table gives for its kind. -/
theorem stepMovesIpByTable : Obligations.StepMovesIpByTable := by
  intro s t hstep
  rcases step_effect hstep with ⟨hf, rfl⟩ | ⟨hf, hh, rfl⟩ | ⟨hf, hh, e, rfl⟩ | ⟨hf, hh, i, hd, hx⟩
  · obtain ⟨r, hr⟩ := stepStatus_of_faulted hf t
    rw [hr]
  · rw [stepStatus_of_halted hf hh]
  · rw [stepStatus_takeFault hf hh]
    rfl
  · rw [hx.stepStatus_eq hf hh]
    cases hx with
    | suspends hd hq => simp [Instr.kind, hq]
    | inp hd hq hip => simp [Instr.kind, hq, Kind.inputs, Kind.outputs]; omega
    | jtTaken hc hg hne => simp [Instr.kind, hd, hc, hg, hne]
    | jtFallsThrough hc hg hip => simp [Instr.kind, hd, hc, hg]
    | jfTaken hc hg => simp [Instr.kind, hd, hc, hg]
    | jfFallsThrough hc hg hne hip => simp [Instr.kind, hd, hc, hg, hne]
    | hlt => simp [Instr.kind]
    | _ => simp [Instr.kind, Kind.inputs, Kind.outputs]; omega

/-! ### The last-operation status -/

/-- Settles O36: standing still and a fault keep `lastop`; an effect writes it, and no fault. -/
theorem lastopRecordsOutcome : Obligations.LastopRecordsOutcome := by
  intro s t hnone hstep
  rcases step_effect hstep with ⟨hf, -⟩ | ⟨-, hh, rfl⟩ | ⟨-, -, e, rfl⟩ | ⟨-, hh, i, hd, hx⟩
  · exact absurd hnone hf
  · simp [hh]
  · simp
  · have hlast := hx.lastop_eq
    refine ⟨fun hfault => absurd (hx.fault_eq.trans hnone) hfault, by simp [hh], fun _ _ => ?_⟩
    refine ⟨i, hd, fun hother => ?_, fun hinp hq => ?_⟩
    · rw [hlast, if_neg (by tauto)]
    · rw [hlast, if_pos ⟨hinp, hq⟩]

/-! ### The input queue -/

/-- Settles O37: of the effects only Input shortens the queue, and only Output lengthens it. -/
theorem queueIsFirstInFirstOut : Obligations.QueueIsFirstInFirstOut := by
  intro s t hstep
  rcases step_effect hstep with ⟨-, rfl⟩ | ⟨-, -, rfl⟩ | ⟨-, -, e, rfl⟩ | ⟨-, -, i, -, hx⟩
  · exact .inl rfl
  · exact .inl rfl
  · exact .inl rfl
  · cases hx with
    | @inp _ _ _ v rest hd hq hip => exact .inr (.inl ⟨rfl, v, by simp [hq]⟩)
    | @out _ _ a ha hip =>
      have hinq := s.output_inq a
      by_cases hself : s.pipe = some s.self
      · exact .inr (.inr ⟨rfl, hself, a, by simpa [hself] using hinq, by simp⟩)
      · exact .inl (by simpa [hself] using hinq)
    | _ => exact .inl rfl

/-! ### Simulation

Two states that agree in what a step reads make the same checks, so if every change of state keeps a
relation of such states, every step keeps it. -/

/-- `u` agrees with `s` in everything that a step reads. -/
structure SameReads (s u : State) : Prop where
  mem : u.mem = s.mem
  cfg : u.cfg = s.cfg
  ip : u.ip = s.ip
  rb : u.rb = s.rb
  inq : u.inq = s.inq
  halted : u.halted = s.halted
  fault : u.fault = s.fault

section Reads
variable {s u : State} (h : SameReads s u)
include h

theorem SameReads.resolveIn_eq (j : Nat) (m : Mode) : resolveIn u j m = resolveIn s j m :=
  resolveIn_congr h.mem h.cfg h.ip h.rb j m

theorem SameReads.resolveOut_eq (j : Nat) (m : Mode) : resolveOut u j m = resolveOut s j m :=
  resolveOut_congr h.mem h.cfg h.ip h.rb j m

theorem SameReads.fetchDecode_eq : fetchDecode u = fetchDecode s :=
  fetchDecode_congr h.mem h.cfg h.ip

theorem SameReads.faultRecord_eq (e : Trap) : faultRecord u e = faultRecord s e := by
  simp only [faultRecord, fetchedWord, h.ip, memRead_congr h.mem h.cfg]

end Reads

/-- A relation of states that agree in what a step reads, kept by each change that a step makes. -/
structure StepRelation (R : State → State → Prop) : Prop where
  reads {s u} : R s u → SameReads s u
  storeCell {s u} : R s u → ∀ d v, R (s.storeCell d v) (u.storeCell d v)
  retire {s u} : R s u → ∀ k ip', R (s.retire k ip') (u.retire k ip')
  setBase {s u} : R s u → ∀ v, R (s.setBase v) (u.setBase v)
  dropInput {s u} : R s u → R s.dropInput u.dropInput
  output {s u} : R s u → ∀ v, R ((s.logOutput v).forward v) ((u.logOutput v).forward v)
  suspend {s u} : R s u → R s.suspend u.suspend
  halt {s u} : R s u → R s.halt u.halt
  setFault {s u} : R s u → ∀ r, R { s with fault := some r } { u with fault := some r }

/-- Two sequences of checks that end in the same trap, or in related states. -/
inductive Matched (R : State → State → Prop) : Except Trap State → Except Trap State → Prop where
  | ok {t t'} : R t t' → Matched R (.ok t) (.ok t')
  | error (e) : Matched R (.error e) (.error e)

theorem Matched.bind {α : Type} {R : State → State → Prop} {f g : α → Except Trap State}
    (x : Except Trap α) (h : ∀ a, Matched R (f a) (g a)) : Matched R (x >>= f) (x >>= g) := by
  cases x with
  | ok a => exact h a
  | error e => exact .error e

/-- Both answer a next state, and the two are related. -/
def BothNext (R : State → State → Prop) (o o' : Host.Outcome State Fault Refusal) : Prop :=
  ∃ t t', o = .next t ∧ o' = .next t' ∧ R t t'

section Simulation
variable {R : State → State → Prop} (hR : StepRelation R) {s u : State} (h : R s u)
include hR h

theorem StepRelation.takeFault (e : Trap) : R (s.takeFault e) (u.takeFault e) := by
  unfold State.takeFault
  rw [(hR.reads h).faultRecord_eq]
  exact hR.setFault h _

theorem conclude_bothNext {x y : Except Trap State} (hxy : Matched R x y) :
    BothNext R (conclude s x) (conclude u y) := by
  cases hxy with
  | ok ht => exact ⟨_, _, rfl, rfl, ht⟩
  | error e => exact ⟨_, _, rfl, rfl, hR.takeFault h e⟩

theorem storeResult_bothNext (k : Kind) {f g : Int → Int → Except Trap Int} (hfg : g = f)
    (m1 m2 m3 : Mode) : BothNext R (storeResult k f m1 m2 m3 s) (storeResult k g m1 m2 m3 u) := by
  have hs := hR.reads h
  refine conclude_bothNext hR h ?_
  simp only [hs.resolveIn_eq, hs.resolveOut_eq, hs.cfg, hs.ip, hfg]
  exact .bind _ fun a => .bind _ fun b => .bind _ fun d => .bind _ fun r => .bind _ fun ip' =>
    .ok (hR.retire (hR.storeCell h d r) k ip')

theorem jumpWhen_bothNext (k : Kind) (taken : Int → Bool) (m1 m2 : Mode) :
    BothNext R (jumpWhen k taken m1 m2 s) (jumpWhen k taken m1 m2 u) := by
  have hs := hR.reads h
  refine conclude_bothNext hR h ?_
  simp only [hs.resolveIn_eq, hs.cfg, hs.ip]
  refine .bind _ fun c => .bind _ fun g => ?_
  split
  · exact .ok (hR.retire h k g)
  · exact .bind _ fun ip' => .ok (hR.retire h k ip')

theorem execInp_bothNext (m1 : Mode) : BothNext R (execInp m1 s) (execInp m1 u) := by
  have hs := hR.reads h
  refine conclude_bothNext hR h ?_
  simp only [hs.resolveOut_eq, hs.cfg, hs.ip, hs.inq]
  refine .bind _ fun d => ?_
  split
  · exact .ok (hR.suspend h)
  · exact .bind _ fun ip' => .ok (hR.retire (hR.storeCell (hR.dropInput h) d _) .inp ip')

theorem execOut_bothNext (m1 : Mode) : BothNext R (execOut m1 s) (execOut m1 u) := by
  have hs := hR.reads h
  refine conclude_bothNext hR h ?_
  simp only [hs.resolveIn_eq, hs.cfg, hs.ip]
  exact .bind _ fun a => .bind _ fun ip' => .ok (hR.retire (hR.output h a) .out ip')

theorem execArb_bothNext (m1 : Mode) : BothNext R (execArb m1 s) (execArb m1 u) := by
  have hs := hR.reads h
  refine conclude_bothNext hR h ?_
  simp only [hs.resolveIn_eq, hs.cfg, hs.ip, hs.rb]
  exact .bind _ fun _ => .bind _ fun rb' => .bind _ fun ip' =>
    .ok (hR.retire (hR.setBase h rb') .arb ip')

theorem exec_bothNext (i : Instr) : BothNext R (exec i s) (exec i u) := by
  have hcfg := (hR.reads h).cfg
  cases i with
  | add m1 m2 m3 => exact storeResult_bothNext hR h .add (by rw [hcfg]) m1 m2 m3
  | mul m1 m2 m3 => exact storeResult_bothNext hR h .mul (by rw [hcfg]) m1 m2 m3
  | inp m1 => exact execInp_bothNext hR h m1
  | out m1 => exact execOut_bothNext hR h m1
  | jt m1 m2 => exact jumpWhen_bothNext hR h .jt _ m1 m2
  | jf m1 m2 => exact jumpWhen_bothNext hR h .jf _ m1 m2
  | lt m1 m2 m3 => exact storeResult_bothNext hR h .lt rfl m1 m2 m3
  | eq m1 m2 m3 => exact storeResult_bothNext hR h .eq rfl m1 m2 m3
  | arb m1 => exact execArb_bothNext hR h m1
  | hlt => exact conclude_bothNext hR h (.ok (hR.halt h))

/-- The commuting diagram: related states step to related states. -/
theorem step_bothNext : BothNext R (step s) (step u) := by
  have hs := hR.reads h
  have hstay : BothNext R (.next s) (.next u) := ⟨s, u, rfl, rfl, h⟩
  unfold step
  rw [hs.fault, hs.halted, hs.fetchDecode_eq]
  split
  · exact hstay
  · split
    · exact hstay
    · split
      · exact exec_bothNext hR h _
      · exact ⟨_, _, rfl, rfl, hR.takeFault h _⟩

end Simulation

/-! ### The output log -/

/-- `t'` is `t` with `log'` in place of the part `log` that its output log begins with. -/
def DiffersInLog (log log' : List Int) (t t' : State) : Prop :=
  ∃ vs, t.outlog = log ++ vs ∧ t' = { t with outlog := log' ++ vs }

theorem State.deliver_withLog (s : State) (log : List Int) (t : InstanceId) (v : Int) :
    State.deliver { s with outlog := log } t v = { s.deliver t v with outlog := log } := by
  simp only [State.deliver]
  split <;> rfl

/-- Forwarding neither reads nor writes the log. -/
theorem State.forward_withLog (s : State) (log : List Int) (v : Int) :
    State.forward { s with outlog := log } v = { s.forward v with outlog := log } := by
  simp only [State.forward]
  split
  · rfl
  · exact s.deliver_withLog log _ v

theorem differsInLog_stepRelation (log log' : List Int) : StepRelation (DiffersInLog log log') where
  reads := by rintro s u ⟨vs, -, rfl⟩; exact ⟨rfl, rfl, rfl, rfl, rfl, rfl, rfl⟩
  storeCell := by rintro s u ⟨vs, hlog, rfl⟩ d v; exact ⟨vs, hlog, rfl⟩
  retire := by rintro s u ⟨vs, hlog, rfl⟩ k ip'; exact ⟨vs, hlog, rfl⟩
  setBase := by rintro s u ⟨vs, hlog, rfl⟩ v; exact ⟨vs, hlog, rfl⟩
  dropInput := by rintro s u ⟨vs, hlog, rfl⟩; exact ⟨vs, hlog, rfl⟩
  output := by
    rintro s u ⟨vs, hlog, rfl⟩ v
    refine ⟨vs ++ [v], by simp [hlog], ?_⟩
    simp only [State.logOutput, State.forward_withLog, List.append_assoc]
  suspend := by rintro s u ⟨vs, hlog, rfl⟩; exact ⟨vs, hlog, rfl⟩
  halt := by rintro s u ⟨vs, hlog, rfl⟩; exact ⟨vs, hlog, rfl⟩
  setFault := by rintro s u ⟨vs, hlog, rfl⟩ r; exact ⟨vs, hlog, rfl⟩

/-- Settles O39: the two states differ in the log alone, and so do the states they step to, each log
longer by the same values. -/
theorem outputLogIsNeverRead : Obligations.OutputLogIsNeverRead := by
  intro s log
  have hstart : DiffersInLog s.outlog log s { s with outlog := log } := ⟨[], by simp, by simp⟩
  obtain ⟨t, t', hs, hu, vs, hlog, rfl⟩ :=
    step_bothNext (differsInLog_stepRelation s.outlog log) hstart
  rw [callStep_of_next hs, callStep_of_next hu]
  simp only [hlog, List.drop_left, List.prefix_append, and_true]
  rfl

/-! ### Numeric codes -/

/-- Settles O18: the opcode of a kind is what the table lists, and the other codes are as tabled. -/
theorem numericCodes : Obligations.NumericCodes := by
  exact ⟨rfl, rfl, by decide, by decide, fun k r => ⟨rfl, rfl, rfl, rfl⟩⟩

end Sys2Proof.Machine

/-! PROOFS. Memory (20_memory): a cell and what reads it, the fetch, and what the instructions leave
unchanged, in the own record and in the others. -/

/-! ### The canonical form -/

namespace Sys2Proof.Machine

/-- A key found is at least the bound of the list. -/
theorem le_of_findKey {α : Type} {l : List (Nat × α)} {lo a : Nat} {v : α} (hl : keysRise lo l = true)
    (h : findKey l a = some v) : lo ≤ a := by
  by_contra hlt
  simp [findKey_below (Nat.lt_of_not_le hlt) hl] at h

/-- Lists with rising keys and the same lookups are the same: each head is found in the other list, so
the first keys are equal, and below the tails nothing is listed. -/
theorem eq_of_findKey_eq {α : Type} {l l' : List (Nat × α)} {lo : Nat} (hl : keysRise lo l = true)
    (hl' : keysRise lo l' = true) (h : ∀ a, findKey l a = findKey l' a) : l = l' := by
  have hhead (k : Nat) (v : α) (l : List (Nat × α)) : findKey ((k, v) :: l) k = some v := by
    simp [findKey_cons]
  induction l generalizing l' lo with
  | nil =>
    cases l' with
    | nil => rfl
    | cons e' l' => exact absurd (h e'.1) (by simp [hhead e'.1 e'.2])
  | cons e l ih =>
    obtain ⟨k, v⟩ := e
    cases l' with
    | nil => exact absurd (h k) (by simp [hhead])
    | cons e' l' =>
      obtain ⟨k', v'⟩ := e'
      simp only [keysRise, Bool.and_eq_true, decide_eq_true_eq] at hl hl'
      have hkk' : k ≤ k' :=
        le_of_findKey (by simpa [keysRise] using hl.2) ((h k').trans (hhead k' v' l'))
      have hk'k : k' ≤ k :=
        le_of_findKey (by simpa [keysRise] using hl'.2) ((h k).symm.trans (hhead k v l))
      obtain rfl : k = k' := Nat.le_antisymm hkk' hk'k
      obtain rfl : v = v' := by simpa [hhead] using h k
      have htail : ∀ a, findKey l a = findKey l' a := fun a => by
        by_cases ha : k = a
        · rw [findKey_below (by omega) hl.2, findKey_below (by omega) hl'.2]
        · simpa [findKey_cons, ha] using h a
      rw [ih hl.2 hl'.2 htail]

/-- In a canonical memory a cell is listed exactly if it reads other than 0. -/
theorem Memory.findKey_of_wf {m : Memory} (h : m.wf = true) (a : Nat) :
    findKey m a = if m.read a = 0 then none else some (m.read a) := by
  cases hf : findKey m a with
  | none => simp [Memory.read, hf]
  | some v =>
    have hv : v ≠ 0 := ((Memory.wf_iff m).1 h).2 _ (mem_of_findKey hf)
    simp [Memory.read, hf, hv]

/-- Canonical memories that read the same are the same (20_memory R53). -/
theorem Memory.eq_of_read_eq {m m' : Memory} (h : m.wf = true) (h' : m'.wf = true)
    (hread : ∀ a, m.read a = m'.read a) : m = m' :=
  eq_of_findKey_eq ((Memory.wf_iff m).1 h).1 ((Memory.wf_iff m').1 h').1 fun a => by
    rw [Memory.findKey_of_wf h, Memory.findKey_of_wf h', hread]

/-- Settles O44: a write of 0 to a cell that reads 0 changes no read, so by the second part it changes
nothing. -/
theorem canonicalMemoryIsItsReads : Obligations.CanonicalMemoryIsItsReads := by
  refine ⟨fun m a b v => Memory.read_write m a v b, fun m m' h h' => Memory.eq_of_read_eq h h',
    fun m a h h0 => ?_, Memory.wf_write⟩
  refine Memory.eq_of_read_eq (Memory.wf_write m a 0 h) h fun b => ?_
  rw [Memory.read_write]
  split
  · next hb => rw [hb, h0]
  · rfl

end Sys2Proof.Machine

/-! ### The fetch -/

namespace Sys2Proof.Machine

/-- A step whose fetch faults takes that fault, with no word in the record (60_exceptions R201). -/
theorem step_of_fetch_fault {s : State} {e : Trap} (hs : Running s)
    (h : checkAddress s.cfg s.ip = .error e) :
    step s = .next { s with fault := some ⟨e.cause, s.ip, none, e.info⟩ } := by
  have hread : memRead s s.ip = .error e := (memRead_error_iff _ _ _).2 h
  rw [step_running hs.1 hs.2, (fetchDecode_error_iff _ _).2 (.inl hread)]
  simp only [State.takeFault, faultRecord, fetchedWord_of_error hread]

/-- Settles O10: the two ways in which the address check of the fetch faults. -/
theorem fetchFaultHasNoWord : Obligations.FetchFaultHasNoWord := by
  intro s hs
  refine ⟨fun hneg => ?_, fun hpos hlimit => ?_⟩
  · exact step_of_fetch_fault hs ((checkAddress_error_iff _ _ _).2 (.inl ⟨hneg, rfl⟩))
  · exact step_of_fetch_fault hs ((checkAddress_error_iff _ _ _).2 (.inr ⟨hpos, hlimit, rfl⟩))

/-- A running machine steps to the effect of the instruction it fetches. -/
theorem Effect.step_eq {i : Instr} {s t : State} (hx : Effect i s t) (hs : Running s)
    (hd : fetchDecode s = .ok i) : step s = .next t := by
  rw [step_running hs.1 hs.2, hd]
  exact hx.exec_eq

/-- With `ip` at an admitted cell, the word there is fetched (20_memory R51). -/
theorem memRead_ip {s : State} {n : Nat} {w : Int} (hip : s.ip = (n : Int))
    (hn : admits s.cfg n = true) (hw : s.mem.read n = w) : memRead s s.ip = .ok w :=
  (memRead_ok_iff _ _ _).2 ⟨n, (checkAddress_ok_iff _ _ _).2 ⟨hip, hn⟩, hw⟩

/-- A running machine steps by the instruction that the word at `ip` decodes to. -/
theorem step_of_fetched {s : State} {w : Int} {i : Instr} (hs : Running s)
    (hw : memRead s s.ip = .ok w) (hdec : decode s.cfg w = .ok i) : step s = exec i s := by
  rw [step_running hs.1 hs.2, (fetchDecode_ok_iff _ _).2 ⟨w, hw, hdec⟩]

/-- Settles O31: the sum is what the cell at the new `ip` reads, and the new state is still running. -/
theorem storeIsFetchedNext : Obligations.StoreIsFetchedNext := by
  intro s m1 m2 m3 a b d i hs hfd ha hb hd hip hsum hnext hdec
  have hadd := Effect.add ha hb hd hsum hnext
  have hadmits := admits_of_resolveOut hd
  have hword := memRead_ip (s := (s.storeCell d (a + b)).retire .add (s.ip + 4)) hip hadmits
    (Memory.read_write_same s.mem d (a + b))
  exact ⟨_, hadd.step_eq hs hfd, hip, fetchedWord_of_read hword, step_of_fetched hs hword hdec⟩

end Sys2Proof.Machine

/-! ### What the instructions leave unchanged -/

namespace Sys2Proof.Machine

/-- The four instructions of format F3 are each one `storeResult`. -/
theorem exec_eq_storeResult {i : Instr} {m1 m2 m3 : Mode}
    (hi : i = .add m1 m2 m3 ∨ i = .mul m1 m2 m3 ∨ i = .lt m1 m2 m3 ∨ i = .eq m1 m2 m3) (s : State) :
    ∃ k f, exec i s = storeResult k f m1 m2 m3 s := by
  rcases hi with rfl | rfl | rfl | rfl <;> exact ⟨_, _, rfl⟩

/-- A store at a resolved output address changes no other cell. -/
theorem read_storeCell_of_unresolved {s u : State} {j : Nat} {m : Mode} {d x : Nat} {v : Int}
    (hd : resolveOut s j m = .ok d) (hx : resolveOut s j m ≠ .ok x) :
    (u.storeCell d v).mem.read x = u.mem.read x :=
  Memory.read_write_other _ _ fun h => hx (h ▸ hd)

/-- Settles O32: the store, or the fault, in which an F3 instruction ends. -/
theorem storingFrame : Obligations.StoringFrame := by
  intro s t m1 m2 m3 i hi h
  obtain ⟨k, f, hexec⟩ := exec_eq_storeResult hi s
  rcases storeResult_next (hexec ▸ h) with ⟨a, b, d, r, -, -, hd, -, -, rfl⟩ | ⟨e, rfl⟩
  · exact ⟨by simp, fun x hx => read_storeCell_of_unresolved hd hx, .inl rfl⟩
  · exact ⟨by simp, fun x _ => rfl, .inr ⟨_, rfl⟩⟩

/-- Settles O33: the suspension, the completed Input and the fault. -/
theorem inputFrame : Obligations.InputFrame := by
  intro s t m1 h
  rcases execInp_next h with ⟨d, hd, ⟨-, rfl⟩ | ⟨v, rest, hq, -, rfl⟩⟩ | ⟨e, rfl⟩
  · exact ⟨by simp, fun x _ => rfl, fun _ x => rfl, .inl rfl⟩
  · exact ⟨by simp, fun x hx => read_storeCell_of_unresolved hd hx, by simp [hq], .inl rfl⟩
  · exact ⟨by simp, fun x _ => rfl, fun _ x => rfl, .inr ⟨_, rfl⟩⟩

/-- Settles O34: of the five kinds' effects only Output's reaches beyond `ip`, `rb`, `halted` and `lastop`,
and its reach is the log and, through the pipe, a queue. -/
theorem nonStoringFrame : Obligations.NonStoringFrame := by
  intro s t i hi h
  rcases exec_next h with hx | ⟨e, rfl⟩
  · cases hx with
    | add | mul | lt | eq | suspends | inp => simp at hi
    | @out m1 _ a ha hip =>
      have hpeers : s.pipe = none → ((s.logOutput a).forward a).peers = s.peers := fun hp => by
        rw [State.forward_none (s.logOutput a) a hp, State.logOutput_peers]
      have hinq : s.pipe ≠ some s.self → ((s.logOutput a).forward a).inq = s.inq := fun hp => by
        rw [State.output_inq, if_neg hp]
      simpa [Instr.kind] using ⟨hpeers, hinq⟩
    | _ => simp [Instr.kind]
  · simp [State.takeFault]

end Sys2Proof.Machine

/-! ### What a step leaves unchanged in other instances -/

namespace Sys2Proof.Machine

theorem State.instanceAt_other {s : State} {id : InstanceId} (h : id ≠ s.self) :
    s.instanceAt id = findKey s.peers id := by simp [State.instanceAt, h]

/-- No effect changes whose turn it is. -/
theorem Effect.self_eq {i : Instr} {s t : State} (hx : Effect i s t) : t.self = s.self := by
  cases hx <;> simp

/-- Settles O40: of all that a step can do only Output's effect writes the peers, at the pipe target. -/
theorem stepTouchesOnlyPipeTarget : Obligations.StepTouchesOnlyPipeTarget := by
  intro s t other hstep hother
  rcases step_effect hstep with ⟨-, rfl⟩ | ⟨-, -, rfl⟩ | ⟨-, -, e, rfl⟩ | ⟨-, -, i, -, hx⟩
  · exact ⟨rfl, .inl rfl⟩
  · exact ⟨rfl, .inl rfl⟩
  · refine ⟨rfl, .inl ?_⟩
    rw [State.instanceAt_other hother, State.instanceAt_other (s := s.takeFault e) hother,
      State.takeFault_peers]
  · refine ⟨hx.self_eq, ?_⟩
    rw [State.instanceAt_other hother, State.instanceAt_other (hx.self_eq ▸ hother)]
    cases hx with
    | @out _ _ a ha hip =>
      have hpeer := s.output_findKey a other
      by_cases hp : s.pipe = some other
      · exact .inr ⟨hp, a, by simp, by simpa [hp, hother, Instance.enqueue] using hpeer⟩
      · exact .inl (by simpa [hp] using hpeer)
    | _ => exact .inl rfl

end Sys2Proof.Machine

/-! PROOFS. Encoding (30_encoding): the decoder and the encoder, what a step does with the word it
fetches, how operands resolve, and the assembly text. -/

/-! ### Mode digits and the number they make -/

namespace Sys2Proof

theorem digit_zero (w : Nat) : digit w 0 = w % 10 := by simp [digit]

theorem digit_add (w a j : Nat) : digit w (a + j) = digit (w / 10 ^ a) j := by
  rw [digit, digit, pow_add, Nat.div_div_eq_div_mul]

/-- Digits below the cut are those of the low part. -/
theorem digit_mod_pow {w j n : Nat} (h : j < n) : digit (w % 10 ^ n) j = digit w j := by
  obtain ⟨d, rfl⟩ := Nat.exists_eq_add_of_lt h
  rw [digit, digit, show j + d + 1 = j + (d + 1) by omega, pow_add, Nat.mod_mul_right_div_self,
    Nat.mod_mod_of_dvd _ (dvd_pow_self 10 d.succ_ne_zero)]

theorem Mode.digit_le_two (m : Mode) : m.digit ≤ 2 := by cases m <;> decide

/-- Every legal digit names a mode (R75). -/
theorem exists_mode_digit {d : Nat} (h : d ≤ 2) : ∃ m : Mode, m.digit = d := by
  interval_cases d
  exacts [⟨.position, rfl⟩, ⟨.immediate, rfl⟩, ⟨.relative, rfl⟩]

theorem Mode.isOutputMode_iff (m : Mode) : m.isOutputMode = true ↔ m ≠ .immediate := by
  cases m <;> simp [Mode.isOutputMode]

/-- The low digits of a number are those of a list of modes exactly if its low part is the number that
the modes make (R71, R88). -/
theorem digits_eq_modes_iff (v : Nat) (ms : List Mode) :
    (List.range ms.length).map (digit v) = ms.map Mode.digit ↔
      v % 10 ^ ms.length = modesValue ms := by
  induction ms generalizing v with
  | nil => simp [modesValue, Nat.mod_one]
  | cons m ms ih =>
    have hshift : digit v ∘ Nat.succ = digit (v / 10) := by
      funext j
      rw [Function.comp_apply, Nat.succ_eq_one_add, digit_add, pow_one]
    have hm := m.digit_le_two
    have hsplit : v % 10 ^ (ms.length + 1) = v % 10 + 10 * (v / 10 % 10 ^ ms.length) := by
      rw [pow_succ', Nat.mod_mul]
    rw [List.length_cons, List.range_succ_eq_map, List.map_cons, List.map_map, List.map_cons,
      List.cons.injEq, hshift, ih, digit_zero, hsplit, modesValue]
    omega

theorem modesValue_lt (ms : List Mode) : modesValue ms < 10 ^ ms.length := by
  induction ms with
  | nil => simp [modesValue]
  | cons m ms ih =>
    have hm := m.digit_le_two
    rw [modesValue, List.length_cons, pow_succ']
    omega

/-! ### An instruction is its kind and its modes -/

theorem instrOf_modes (k : Kind) (m : Nat → Mode) :
    (instrOf k m).modes = (List.range k.arity).map fun j => m (j + 1) := by
  cases k <;> rfl

theorem instrOf_wellFormed_iff (k : Kind) (m : Nat → Mode) :
    (instrOf k m).wellFormed = true ↔ (k.outputs = 1 → m k.arity ≠ .immediate) := by
  cases k <;> simp [instrOf, Instr.wellFormed, Kind.outputs, Kind.inputs, Kind.arity,
    Mode.isOutputMode_iff]

/-- The instruction of a kind with a list of modes, P1's first. -/
def instrWith (k : Kind) (ms : List Mode) : Instr := instrOf k fun j => (ms[j - 1]?).getD .position

@[simp] theorem instrWith_kind (k : Kind) (ms : List Mode) : (instrWith k ms).kind = k :=
  instrOf_kind _ _

theorem instrWith_modes {k : Kind} {ms : List Mode} (h : ms.length = k.arity) :
    (instrWith k ms).modes = ms := by
  rw [instrWith, instrOf_modes, ← h]
  refine List.ext_getElem (by simp) fun j _ hj => ?_
  simp [List.getElem?_eq_getElem hj]

theorem instrWith_kind_modes (i : Instr) : instrWith i.kind i.modes = i := by cases i <;> rfl

theorem Instr.ext_kind_modes {i i' : Instr} (hk : i.kind = i'.kind) (hm : i.modes = i'.modes) :
    i = i' := by
  rw [← instrWith_kind_modes i, hk, hm, instrWith_kind_modes]

theorem instrOf_congr {k : Kind} {m m' : Nat → Mode} (h : ∀ j, 1 ≤ j → j ≤ k.arity → m' j = m j) :
    instrOf k m' = instrOf k m := by
  refine Instr.ext_kind_modes (by simp) ?_
  rw [instrOf_modes, instrOf_modes]
  exact List.map_congr_left fun j hj => h (j + 1) (by omega) (List.mem_range.1 hj)

theorem Instr.modes_length (i : Instr) : i.modes.length = i.kind.arity := by cases i <;> rfl

/-- Well-formed means that an output parameter, the last one, is not immediate (R77). -/
theorem Instr.wellFormed_iff (i : Instr) :
    i.wellFormed = true ↔ (i.kind.outputs = 1 → i.modes.getLast? ≠ some .immediate) := by
  cases i <;> simp [Instr.wellFormed, Instr.kind, Instr.modes, Kind.outputs, Mode.isOutputMode_iff]

/-! ### Decoding by digits -/

theorem Kind.opcode_cases (k : Kind) : (1 ≤ k.opcode ∧ k.opcode ≤ 9) ∨ k.opcode = 99 := by
  cases k <;> decide

/-- An illegal opcode value selects no kind (R74). -/
theorem kindOf_eq_none {op : Nat} (h : op = 0 ∨ (10 ≤ op ∧ op ≤ 98)) : kindOf op = none := by
  rw [Option.eq_none_iff_forall_ne_some]
  intro k hk
  rw [kindOf_eq_some_iff] at hk
  have := k.opcode_cases
  omega

theorem decode_illegal_opcode (c : Config) {n : Nat} (h : kindOf (n % 100) = none) :
    decode c (n : Int) = .error ⟨.invalidOpcode, some ((n % 100 : Nat) : Int)⟩ := by
  rw [decode_natCast, h]

theorem decode_of_kind (c : Config) {n : Nat} {k : Kind} (h : kindOf (n % 100) = some k) :
    decode c (n : Int) = decodeKind c n k := by
  rw [decode_natCast, h]

/-- The mode digits of a word are those of a list of modes exactly if its parameters have these modes. -/
theorem mode_digits_iff (n : Nat) (ms : List Mode) :
    (List.range ms.length).map (fun j => digit n (j + 2)) = ms.map Mode.digit ↔
      ∀ j < ms.length, modeOf n (j + 1) = ms[j]? := by
  rw [List.ext_getElem_iff]
  simp only [List.length_map, List.length_range, List.getElem_map, List.getElem_range, true_and]
  refine forall_congr' fun j => ⟨fun h hj => ?_, fun h hj _ => ?_⟩
  · rw [List.getElem?_eq_getElem hj, modeOf_eq_some_iff, h hj hj]
  · rw [← modeOf_eq_some_iff, h hj, List.getElem?_eq_getElem hj]

section Digits
variable {c : Config} {n : Nat} {k : Kind}

/-- A used mode digit of 3 or more is refused (R75). -/
theorem decodeKind_of_illegal_digit {j : Nat} (h1 : 1 ≤ j) (hj : j ≤ k.arity)
    (h : 3 ≤ digit n (j + 1)) : decodeKind c n k = .error ⟨.invalidMode, none⟩ := by
  have hlegal : usedDigitsLegal n k = false := by
    rw [Bool.eq_false_iff, ne_eq, usedDigitsLegal_iff]
    intro hall
    have := hall j h1 hj
    omega
  rw [decodeKind, if_pos hlegal]

/-- So are excess digits, where they fault (R76). -/
theorem decodeKind_of_excess (hc : c.excess = .fault) (h : excessField n k ≠ 0) :
    decodeKind c n k = .error ⟨.invalidMode, none⟩ := by
  rw [decodeKind, if_pos (And.intro hc h), ite_self]

/-- With every digit legal only an immediate output is refused (R77, R86). -/
theorem decodeKind_of_legal (hlegal : ∀ j, 1 ≤ j → j ≤ k.arity → digit n (j + 1) ≤ 2)
    (hexcess : c.excess = .ignore ∨ excessField n k = 0) :
    decodeKind c n k =
      if k.outputs = 1 ∧ digit n (k.arity + 1) = 1 then .error ⟨.invalidOutputMode, none⟩
      else .ok (instrOf k fun j => (modeOf n j).getD .position) := by
  have hused := (usedDigitsLegal_iff n k).2 hlegal
  have hfault : ¬(c.excess = .fault ∧ excessField n k ≠ 0) := by
    rcases hexcess with h | h <;> simp [h]
  simp only [decodeKind, hused, Bool.true_eq_false, if_false, if_neg hfault, modeOf_eq_some_iff,
    Mode.digit]

/-- Where excess digits are ignored, the decode of a kind reads the used mode digits alone. -/
theorem decodeKind_congr {n' : Nat} (hc : c.excess = .ignore)
    (h : ∀ j, 1 ≤ j → j ≤ k.arity → digit n' (j + 1) = digit n (j + 1)) :
    decodeKind c n' k = decodeKind c n k := by
  by_cases hlegal : ∀ j, 1 ≤ j → j ≤ k.arity → digit n (j + 1) ≤ 2
  · have hout : (k.outputs = 1 ∧ digit n' (k.arity + 1) = 1) ↔
        (k.outputs = 1 ∧ digit n (k.arity + 1) = 1) :=
      and_congr_right fun h1 => by rw [h k.arity (by rw [Kind.arity, h1]; omega) le_rfl]
    have hinstr : instrOf k (fun j => (modeOf n' j).getD .position) =
        instrOf k fun j => (modeOf n j).getD .position :=
      instrOf_congr fun j h1 hj => by rw [modeOf, modeOf, h j h1 hj]
    rw [decodeKind_of_legal (fun j h1 hj => h j h1 hj ▸ hlegal j h1 hj) (.inl hc),
      decodeKind_of_legal hlegal (.inl hc), hinstr]
    simp only [hout]
  · push Not at hlegal
    obtain ⟨j, h1, hj, hd⟩ := hlegal
    rw [decodeKind_of_illegal_digit h1 hj hd, decodeKind_of_illegal_digit h1 hj (h j h1 hj ▸ hd)]

/-- What a word that decodes has: the kind it was decoded for, and digits that name the modes. -/
theorem decodeKind_ok_modes {i : Instr} (h : decodeKind c n k = .ok i) :
    i.kind = k ∧ i.wellFormed = true ∧ ∀ j < k.arity, modeOf n (j + 1) = i.modes[j]? := by
  obtain ⟨hlegal, -, hout, rfl⟩ := decodeKind_ok h
  have hmode (j : Nat) (hj : j < k.arity) :
      modeOf n (j + 1) = some ((modeOf n (j + 1)).getD .position) := by
    have hdigit := (usedDigitsLegal_iff n k).1 hlegal (j + 1) (by omega) hj
    obtain ⟨m, hm⟩ := Option.isSome_iff_exists.1 ((modeOf_isSome_iff n (j + 1)).2 hdigit)
    rw [hm, Option.getD_some]
  refine ⟨instrOf_kind _ _, (instrOf_wellFormed_iff _ _).2 fun h1 himm => ?_, fun j hj => ?_⟩
  · rw [Kind.arity, h1] at hmode himm hout
    exact hout rfl (by rw [hmode k.inputs (by omega), himm])
  · rw [hmode j hj, instrOf_modes]
    simp [hj]

/-- A word whose digits name the modes of a well-formed instruction decodes to it. -/
theorem decodeKind_of_modes {i : Instr} (hwf : i.wellFormed = true)
    (hmode : ∀ j < i.kind.arity, modeOf n (j + 1) = i.modes[j]?)
    (hexcess : c.excess = .fault → excessField n i.kind = 0) : decodeKind c n i.kind = .ok i := by
  have hlegal (j : Nat) (h1 : 1 ≤ j) (hj : j ≤ i.kind.arity) : digit n (j + 1) ≤ 2 := by
    rw [← modeOf_isSome_iff, ← Nat.sub_add_cancel h1, hmode (j - 1) (by omega)]
    simp [i.modes_length]
    omega
  have hout : ¬(i.kind.outputs = 1 ∧ digit n (i.kind.arity + 1) = 1) := by
    rintro ⟨h1, hd⟩
    have himm : modeOf n i.kind.arity = some .immediate := (modeOf_eq_some_iff _ _ _).2 hd
    have hlast := i.wellFormed_iff.1 hwf h1
    rw [List.getLast?_eq_getElem?, i.modes_length] at hlast
    rw [Kind.arity, h1] at hlast hmode himm
    exact hlast ((hmode i.kind.inputs (by omega)).symm.trans himm)
  have hpolicy : c.excess = .ignore ∨ excessField n i.kind = 0 := by
    cases hc : c.excess with
    | fault => exact .inr (hexcess hc)
    | ignore => exact .inl rfl
  rw [decodeKind_of_legal hlegal hpolicy, if_neg hout, Except.ok.injEq]
  refine Instr.ext_kind_modes (instrOf_kind _ _) (List.ext_getElem? fun j => ?_)
  rcases lt_or_ge j i.kind.arity with hj | hj
  · simp [instrOf_modes, hj, hmode j hj, i.modes_length]
  · simp [instrOf_modes, hj, i.modes_length]

/-- When a word of a known kind decodes, and to what: to the instruction whose modes its digits name,
if that is well-formed and no excess digit is refused (R86). -/
theorem decodeKind_ok_iff (i : Instr) :
    decodeKind c n k = .ok i ↔ i.kind = k ∧
      (List.range i.modes.length).map (fun j => digit n (j + 2)) = i.modes.map Mode.digit ∧
      i.wellFormed = true ∧ (c.excess = .fault → excessField n k = 0) := by
  rw [mode_digits_iff, i.modes_length]
  constructor
  · intro h
    obtain ⟨rfl, hwf, hmode⟩ := decodeKind_ok_modes h
    exact ⟨rfl, hmode, hwf, (decodeKind_ok h).2.1⟩
  · rintro ⟨rfl, hmode, hwf, hexcess⟩
    exact decodeKind_of_modes hwf hmode hexcess

end Digits

/-! ### The decoder inverts the encoder -/

theorem Kind.opcode_lt (k : Kind) : k.opcode < 100 := by cases k <;> decide

/-- The encoding of an instruction fills the opcode digits and one mode digit a parameter (R71, R88). -/
theorem encode_lt (i : Instr) : encode i < ((10 ^ (i.kind.arity + 2) : Nat) : Int) := by
  have hop := i.kind.opcode_lt
  have hmodes := modesValue_lt i.modes
  rw [i.modes_length] at hmodes
  rw [encode, pow_add]
  omega

theorem encode_nonneg (i : Instr) : 0 ≤ encode i := Int.natCast_nonneg _

theorem encode_low_digits (i : Instr) : encode i % ((10 ^ (i.kind.arity + 2) : Nat) : Int) = encode i :=
  Int.emod_eq_of_lt (encode_nonneg i) (encode_lt i)

/-- The low digits of a word are the encoding of an instruction exactly if its opcode is the kind's and
its mode digits are those of the modes (R71, R88). -/
theorem low_digits_eq_encode_iff (n : Nat) (i : Instr) :
    ((n % 10 ^ (i.kind.arity + 2) : Nat) : Int) = encode i ↔
      kindOf (n % 100) = some i.kind ∧
        (List.range i.modes.length).map (fun j => digit n (j + 2)) = i.modes.map Mode.digit := by
  have hop := i.kind.opcode_lt
  have hsplit : n % 10 ^ (i.kind.arity + 2) = n % 100 + 100 * (n / 100 % 10 ^ i.kind.arity) := by
    rw [pow_add, Nat.mul_comm, Nat.mod_mul, show 10 ^ 2 = 100 from rfl]
  have hdigit : (fun j => digit n (j + 2)) = digit (n / 100) := by
    funext j
    rw [Nat.add_comm, digit_add, show 10 ^ 2 = 100 from rfl]
  rw [kindOf_eq_some_iff, hdigit, digits_eq_modes_iff, i.modes_length, hsplit, encode, Int.natCast_inj]
  omega

/-- When a word decodes to an instruction: when the instruction is well-formed and its encoding is the
low digits of the word, and the whole word where excess digits fault (R71, R76, R86). -/
theorem decode_ok_iff (c : Config) (w : Int) (i : Instr) :
    decode c w = .ok i ↔ i.wellFormed = true ∧ 0 ≤ w ∧
      w % ((10 ^ (i.kind.arity + 2) : Nat) : Int) = encode i ∧ (c.excess = .fault → w = encode i) := by
  rcases lt_or_ge w 0 with hneg | hpos
  · simp [decode_negative c hneg, hneg]
  obtain ⟨n, rfl⟩ := Int.eq_ofNat_of_zero_le hpos
  have hlow := low_digits_eq_encode_iff n i
  have hexcess : ((n % 10 ^ (i.kind.arity + 2) : Nat) : Int) = encode i →
      (excessField n i.kind = 0 ↔ (n : Int) = encode i) := by
    have hlt := encode_lt i
    intro heq
    rw [excessField, Nat.div_eq_zero_iff_lt (by positivity)]
    refine ⟨fun h => by rwa [Nat.mod_eq_of_lt h] at heq, fun h => ?_⟩
    rw [← h] at hlt
    exact_mod_cast hlt
  constructor
  · intro h
    obtain ⟨n', k, hn, hk, h⟩ := decode_ok h
    cases Int.natCast_inj.1 hn
    obtain ⟨rfl, hdigits, hwf, hfault⟩ := (decodeKind_ok_iff _).1 h
    have heq := hlow.2 ⟨hk, hdigits⟩
    exact ⟨hwf, hpos, heq, fun hc => (hexcess heq).1 (hfault hc)⟩
  · rintro ⟨hwf, -, heq, hfault⟩
    obtain ⟨hk, hdigits⟩ := hlow.1 heq
    rw [decode_of_kind c hk]
    exact (decodeKind_ok_iff _).2 ⟨rfl, hdigits, hwf, fun hc => (hexcess heq).2 (hfault hc)⟩

/-- Where excess digits fault, the words that decode are the encodings. -/
theorem decode_ok_iff_of_fault {c : Config} (h : c.excess = .fault) (w : Int) (i : Instr) :
    decode c w = .ok i ↔ i.wellFormed = true ∧ w = encode i := by
  rw [decode_ok_iff]
  constructor
  · rintro ⟨hwf, -, -, heq⟩
    exact ⟨hwf, heq h⟩
  · rintro ⟨hwf, rfl⟩
    exact ⟨hwf, encode_nonneg i, encode_low_digits i, fun _ => rfl⟩

theorem decode_encode (c : Config) {i : Instr} (h : i.wellFormed = true) :
    decode c (encode i) = .ok i :=
  (decode_ok_iff _ _ _).2 ⟨h, encode_nonneg i, encode_low_digits i, fun _ => rfl⟩

/-- Settles O1: the encoding is all of its own low digits, so it decodes, excess digits or not. -/
theorem decodeInvertsEncode : Obligations.DecodeInvertsEncode :=
  fun c _ h => decode_encode c h

/-- Settles O2: one direction of `decode_ok_iff`. -/
theorem decodedWordIsEncoding : Obligations.DecodedWordIsEncoding :=
  fun c w i h => (decode_ok_iff c w i).1 h

/-- Settles O7: each word is the encoding of its instruction, and the lengths are computed. -/
theorem specWordsDecode : Obligations.SpecWordsDecode := by
  have hword (i : Instr) (h : i.wellFormed = true) : decode Config.standard (encode i) = .ok i :=
    decode_encode _ h
  exact ⟨hword (.add .position .position .position) rfl, hword (.add .position .position .relative) rfl,
    hword (.mul .position .immediate .position) rfl, hword (.inp .relative) rfl,
    hword (.out .immediate) rfl, hword (.jt .immediate .relative) rfl,
    hword (.jf .immediate .immediate) rfl, hword (.lt .immediate .immediate .relative) rfl,
    hword (.eq .relative .relative .relative) rfl, hword (.arb .relative) rfl, hword .hlt rfl, rfl⟩

/-! ### The legal instruction words -/

/-- Every list of `n` modes. -/
def modeLists : Nat → List (List Mode)
  | 0 => [[]]
  | n + 1 => [Mode.position, .immediate, .relative].flatMap fun m => (modeLists n).map (m :: ·)

theorem mem_modeLists {n : Nat} {ms : List Mode} : ms ∈ modeLists n ↔ ms.length = n := by
  induction n generalizing ms with
  | zero => simp [modeLists]
  | succ n ih =>
    cases ms with
    | nil => simp [modeLists]
    | cons m ms => cases m <;> simp [modeLists, ih]

theorem modeLists_nodup (n : Nat) : (modeLists n).Nodup := by
  induction n with
  | zero => simp [modeLists]
  | succ n ih =>
    refine List.nodup_flatMap.2 ⟨fun m _ => ih.map (List.cons_injective), ?_⟩
    simp [Function.onFun, List.Disjoint]

/-- Every well-formed instruction: of each kind, with all lists of as many modes as it has parameters. -/
def legalInstrs : List Instr :=
  (Machine.allKinds.flatMap fun k => (modeLists k.arity).map (instrWith k)).filter Instr.wellFormed

theorem mem_legalInstrs {i : Instr} : i ∈ legalInstrs ↔ i.wellFormed = true := by
  have hkind : i.kind ∈ Machine.allKinds := by cases i.kind <;> decide
  rw [legalInstrs, List.mem_filter, and_iff_right_iff_imp]
  intro _
  refine List.mem_flatMap.2 ⟨i.kind, hkind, List.mem_map.2 ⟨i.modes, ?_, instrWith_kind_modes i⟩⟩
  exact mem_modeLists.2 i.modes_length

/-- No well-formed instruction is listed twice: the parts differ in the kind, and within a part the lists
of modes do. -/
theorem legalInstrs_nodup : legalInstrs.Nodup := by
  have hpart (k : Kind) : ((modeLists k.arity).map (instrWith k)).Nodup :=
    (modeLists_nodup _).map_on fun ms hms ms' hms' h => by
      rw [← instrWith_modes (mem_modeLists.1 hms), h, instrWith_modes (mem_modeLists.1 hms')]
  have hkinds : Machine.allKinds.Pairwise
      (Function.onFun List.Disjoint fun k => (modeLists k.arity).map (instrWith k)) := by
    refine (show Machine.allKinds.Nodup by decide).imp fun hne i hi hi' => hne ?_
    obtain ⟨ms, -, rfl⟩ := List.mem_map.1 hi
    obtain ⟨ms', -, h⟩ := List.mem_map.1 hi'
    simpa using (congrArg Instr.kind h).symm
  exact (List.nodup_flatMap.2 ⟨fun k _ => hpart k, hkinds⟩).filter _

/-- The legal instruction words of R79: the encodings of the well-formed instructions. -/
def legalWords : List Int := legalInstrs.map encode

theorem mem_legalWords {w : Int} :
    w ∈ legalWords ↔ ∃ i : Instr, i.wellFormed = true ∧ w = encode i := by
  simp only [legalWords, List.mem_map, mem_legalInstrs, eq_comm]

theorem legalWords_nodup : legalWords.Nodup :=
  legalInstrs_nodup.map_on fun i hi i' hi' h => by
    have hdec := decode_encode Config.standard (mem_legalInstrs.1 hi)
    rw [h, decode_encode _ (mem_legalInstrs.1 hi'), Except.ok.injEq] at hdec
    exact hdec.symm

/-- The encoding of an instruction of three, two and one parameters, as a sum (R88). -/
theorem encode_of_three {i : Instr} {op : Nat} {m1 m2 m3 : Mode} (hop : i.kind.opcode = op)
    (h : i.modes = [m1, m2, m3]) :
    encode i =
      ((op + 100 * m1.digit + 1000 * m2.digit + 10000 * m3.digit : Nat) : Int) := by
  simp only [encode, hop, h, modesValue, Int.natCast_inj]
  omega

theorem encode_of_two {i : Instr} {op : Nat} {m1 m2 : Mode} (hop : i.kind.opcode = op)
    (h : i.modes = [m1, m2]) :
    encode i = ((op + 100 * m1.digit + 1000 * m2.digit : Nat) : Int) := by
  simp only [encode, hop, h, modesValue, Int.natCast_inj]
  omega

theorem encode_of_one {i : Instr} {op : Nat} {m1 : Mode} (hop : i.kind.opcode = op)
    (h : i.modes = [m1]) :
    encode i = ((op + 100 * m1.digit : Nat) : Int) := by
  simp only [encode, hop, h, modesValue, Int.natCast_inj]
  omega

theorem Mode.isOutputMode_iff_digit (m : Mode) : m.isOutputMode = true ↔ m.digit = 0 ∨ m.digit = 2 := by
  cases m <;> decide

/-- The forms of the legal words, as R79 lists them: three parameters and an output, two, one, Input and
Halt. -/
def LegalFormat (w : Int) : Prop :=
  (∃ op m1 m2 m3 : Nat, (op = 1 ∨ op = 2 ∨ op = 7 ∨ op = 8) ∧ m1 ≤ 2 ∧ m2 ≤ 2 ∧ (m3 = 0 ∨ m3 = 2) ∧
    w = ((op + 100 * m1 + 1000 * m2 + 10000 * m3 : Nat) : Int)) ∨
  (∃ op m1 m2 : Nat, (op = 5 ∨ op = 6) ∧ m1 ≤ 2 ∧ m2 ≤ 2 ∧
    w = ((op + 100 * m1 + 1000 * m2 : Nat) : Int)) ∨
  (∃ op m1 : Nat, (op = 4 ∨ op = 9) ∧ m1 ≤ 2 ∧ w = ((op + 100 * m1 : Nat) : Int)) ∨
  w = 3 ∨ w = 203 ∨ w = 99

theorem legalFormat_encode {i : Instr} (hwf : i.wellFormed = true) : LegalFormat (encode i) := by
  cases i with
  | add m1 m2 m3 | mul m1 m2 m3 | lt m1 m2 m3 | eq m1 m2 m3 =>
    refine .inl ⟨_, _, _, _, ?_, m1.digit_le_two, m2.digit_le_two,
      m3.isOutputMode_iff_digit.1 hwf, encode_of_three rfl rfl⟩
    simp [Instr.kind, Kind.opcode, opcodeTable]
  | jt m1 m2 | jf m1 m2 =>
    refine .inr (.inl ⟨_, _, _, ?_, m1.digit_le_two, m2.digit_le_two, encode_of_two rfl rfl⟩)
    simp [Instr.kind, Kind.opcode, opcodeTable]
  | out m1 | arb m1 =>
    refine .inr (.inr (.inl ⟨_, _, ?_, m1.digit_le_two, encode_of_one rfl rfl⟩))
    simp [Instr.kind, Kind.opcode, opcodeTable]
  | inp m1 =>
    refine .inr (.inr (.inr ?_))
    cases m1 with
    | position | relative => decide
    | immediate => exact absurd hwf (by decide)
  | hlt => exact .inr (.inr (.inr (by decide)))

theorem exists_instr_of_legalFormat {w : Int} (h : LegalFormat w) :
    ∃ i : Instr, i.wellFormed = true ∧ w = encode i := by
  rcases h with ⟨op, m1, m2, m3, hop, h1, h2, h3, rfl⟩ | ⟨op, m1, m2, hop, h1, h2, rfl⟩ |
    ⟨op, m1, hop, h1, rfl⟩ | rfl | rfl | rfl
  · obtain ⟨m1, rfl⟩ := exists_mode_digit h1
    obtain ⟨m2, rfl⟩ := exists_mode_digit h2
    obtain ⟨m3, rfl⟩ := exists_mode_digit (d := m3) (by omega)
    have hwf := m3.isOutputMode_iff_digit.2 h3
    rcases hop with rfl | rfl | rfl | rfl
    · exact ⟨.add m1 m2 m3, hwf, Eq.symm (encode_of_three rfl rfl)⟩
    · exact ⟨.mul m1 m2 m3, hwf, Eq.symm (encode_of_three rfl rfl)⟩
    · exact ⟨.lt m1 m2 m3, hwf, Eq.symm (encode_of_three rfl rfl)⟩
    · exact ⟨.eq m1 m2 m3, hwf, Eq.symm (encode_of_three rfl rfl)⟩
  · obtain ⟨m1, rfl⟩ := exists_mode_digit h1
    obtain ⟨m2, rfl⟩ := exists_mode_digit h2
    rcases hop with rfl | rfl
    · exact ⟨.jt m1 m2, rfl, Eq.symm (encode_of_two rfl rfl)⟩
    · exact ⟨.jf m1 m2, rfl, Eq.symm (encode_of_two rfl rfl)⟩
  · obtain ⟨m1, rfl⟩ := exists_mode_digit h1
    rcases hop with rfl | rfl
    · exact ⟨.out m1, rfl, Eq.symm (encode_of_one rfl rfl)⟩
    · exact ⟨.arb m1, rfl, Eq.symm (encode_of_one rfl rfl)⟩
  · exact ⟨.inp .position, rfl, rfl⟩
  · exact ⟨.inp .relative, rfl, rfl⟩
  · exact ⟨.hlt, rfl, rfl⟩

theorem mem_legalWords_iff_format (w : Int) : w ∈ legalWords ↔ LegalFormat w := by
  rw [mem_legalWords]
  refine ⟨?_, exists_instr_of_legalFormat⟩
  rintro ⟨i, hwf, rfl⟩
  exact legalFormat_encode hwf

theorem mem_legalWords_iff_decode {c : Config} (hc : c.excess = .fault) (w : Int) :
    w ∈ legalWords ↔ ∃ i, decode c w = .ok i := by
  simp only [mem_legalWords, decode_ok_iff_of_fault hc]

/-- Under `ignore` every word that ends in 99 decodes to Halt (R76). -/
theorem decode_ends_in_99 {c : Config} (hc : c.excess = .ignore) (n : Nat) :
    decode c ((99 + 100 * n : Nat) : Int) = .ok .hlt := by
  refine (decode_ok_iff c _ .hlt).2 ⟨rfl, Int.natCast_nonneg _, ?_, by simp [hc]⟩
  change ((99 + 100 * n : Nat) : Int) % (100 : Nat) = 99
  omega

end Sys2Proof

/-! ### What a step does with the word it fetches -/

namespace Sys2Proof.Machine

/-- A step takes the fault that the decode of the fetched word raises, with the word in the record
(60_exceptions R201). -/
theorem step_of_decode_error {s : State} {w : Int} {e : Trap} (hs : Running s)
    (hw : memRead s s.ip = .ok w) (h : decode s.cfg w = .error e) : step s = .next (s.takeFault e) := by
  rw [step_running hs.1 hs.2, (fetchDecode_error_iff _ _).2 (.inr ⟨w, hw, h⟩)]

theorem takeFault_of_fetched {s : State} {w : Int} (hw : memRead s s.ip = .ok w) (e : Trap) :
    s.takeFault e = { s with fault := some ⟨e.cause, s.ip, some w, e.info⟩ } := by
  rw [State.takeFault, faultRecord, fetchedWord_of_read hw]

/-- Settles O4: a negative word raises before its opcode is read, and the opcode values 0 and 10 to 98
stand for no kind. -/
theorem illegalOpcodesFault : Obligations.IllegalOpcodesFault := by
  intro s w hs hw
  refine ⟨fun hneg => ?_, fun hpos hop => ?_⟩
  · rw [step_of_decode_error hs hw (decode_negative _ hneg), takeFault_of_fetched hw]
  · obtain ⟨n, rfl⟩ := Int.eq_ofNat_of_zero_le hpos
    have hnone : kindOf (n % 100) = none := kindOf_eq_none (by omega)
    rw [step_of_decode_error hs hw (decode_illegal_opcode _ hnone), takeFault_of_fetched hw]
    rfl

/-- Settles O3: the legal words are the encodings of the well-formed instructions, which can be counted;
under `ignore` every word that ends in 99 is legal too. -/
theorem legalWordsCounted : Obligations.LegalWordsCounted := by
  refine ⟨⟨legalWords, legalWords_nodup, by decide, mem_legalWords_iff_format, ?_, ?_, ?_,
    fun c w hc => mem_legalWords_iff_decode hc w, fun s w hs hc hw hmem => ?_⟩, fun c bound hc => ?_⟩
  · rintro op (rfl | rfl | rfl | rfl) <;> decide
  · rintro op (rfl | rfl) <;> decide
  · rintro op (rfl | rfl) <;> decide
  · rw [mem_legalWords_iff_decode hc] at hmem
    cases hdec : decode s.cfg w with
    | ok i => exact absurd ⟨i, hdec⟩ hmem
    | error e => exact ⟨_, step_of_decode_error hs hw hdec⟩
  · exact ⟨_, _, by omega, decode_ends_in_99 hc bound.toNat⟩

/-- Settles O5: the digit checks of `decodeKind`, at the word that a running step fetches. -/
theorem modeDigitsChecked : Obligations.ModeDigitsChecked := by
  refine ⟨fun s w k hs hw hk => ⟨fun j h1 hj hd => ?_, fun hc hx => ?_, fun hc => ?_,
    fun hlegal hx => ?_⟩, ⟨rfl, rfl, rfl⟩, fun c hc => ⟨?_, ?_⟩, fun c hc => ?_, rfl⟩
  · exact step_of_decode_error hs hw
      ((decode_of_kind _ hk).trans (decodeKind_of_illegal_digit h1 hj hd))
  · exact step_of_decode_error hs hw ((decode_of_kind _ hk).trans (decodeKind_of_excess hc hx))
  · have hlow : kindOf (w % 10 ^ (k.arity + 2) % 100) = some k := by
      rwa [Nat.mod_mod_of_dvd _ (show 100 ∣ _ from pow_dvd_pow 10 (Nat.le_add_left 2 k.arity))]
    rw [decode_of_kind _ hk, decode_of_kind _ hlow]
    exact (decodeKind_congr hc fun j _ hj => digit_mod_pow (by omega)).symm
  · rw [decode_of_kind _ hk, decodeKind_of_legal hlegal hx]
    split <;> simp
  · exact (decode_of_kind c (n := 199) (k := .hlt) rfl).trans (decodeKind_of_excess hc (by decide))
  · exact (decode_of_kind c (n := 1104) (k := .out) rfl).trans (decodeKind_of_excess hc (by decide))
  · exact (decode_ok_iff c 199 .hlt).2 ⟨rfl, by decide, rfl, by simp [hc]⟩

/-- Settles O6: `decodeKind_of_legal`, and the digits of an instruction that decodes are its modes'. -/
theorem outputModeChecked : Obligations.OutputModeChecked := by
  intro s w k hs hw hk hlegal hx
  have hdec := (decode_of_kind s.cfg hk).trans (decodeKind_of_legal hlegal hx)
  refine ⟨fun h1 hd => ?_, fun hout => ?_⟩
  · rw [if_pos ⟨h1, hd⟩] at hdec
    exact step_of_decode_error hs hw hdec
  · rw [if_neg (by rcases hout with h | h <;> simp [h])] at hdec
    refine ⟨_, hdec, instrOf_kind _ _, ?_⟩
    rw [decode_of_kind _ hk, decodeKind_ok_iff, Instr.modes_length, instrOf_kind] at hdec
    exact hdec.2.1.symm

/-- Settles O8: the fetched word decodes, and the encoding of a well-formed instruction does. -/
theorem stepRunsDecodedInstruction : Obligations.StepRunsDecodedInstruction :=
  ⟨fun _ _ _ => step_of_fetched, fun _ _ _ hs hip ha hwf hread =>
    step_of_fetched hs (memRead_ip hip ha hread) (decode_encode _ hwf)⟩

theorem read_storeWords_of_lt {m : Memory} {a b : Nat} {vs : List Int} (h : b < a) :
    (storeWords m a vs).read b = m.read b := by
  induction vs generalizing m a with
  | nil => rfl
  | cons v vs ih =>
    rw [storeWords, ih (by omega), Memory.read_write_other _ _ (by omega)]

/-- The first word stored stays, since the others go to higher addresses. -/
theorem read_storeWords_head (m : Memory) (a : Nat) (v : Int) (vs : List Int) :
    (storeWords m a (v :: vs)).read a = v := by
  rw [storeWords, read_storeWords_of_lt (Nat.lt_succ_self a), Memory.read_write_same]

theorem decodeTableWord_eq_some_iff (nbits w : Nat) (i : Instr) :
    decodeTableWord nbits w = some i ↔ decode Config.standard (w : Int) = .ok i := by
  unfold decodeTableWord
  split <;> simp_all

/-- Settles O9: the placed state runs, its `ip` is an address, and the cell there holds the word. -/
theorem placedInstructionRuns : Obligations.PlacedInstructionRuns := by
  intro s nbits w i hcfg h
  have hdec : decode s.cfg (w : Int) = .ok i := hcfg ▸ (decodeTableWord_eq_some_iff _ _ _).1 h
  have hadmits : admits s.cfg (fetchAddress s) = true := admits_of_unbounded (hcfg ▸ rfl) _
  exact step_of_fetched (s := s.withFetchWord nbits w) ⟨rfl, rfl⟩
    (memRead_ip rfl hadmits (read_storeWords_head _ _ _ _)) hdec

theorem exec_answers (i : Instr) (s : State) : ∃ t, exec i s = .next t := by
  cases i with
  | hlt => exact ⟨s.halt, rfl⟩
  | _ => exact conclude_answers s _

/-- Settles O11: every end of a step is a next state: that of an instruction, the fault taken, or the
same state. -/
theorem everyStepAnswersNext : Obligations.EveryStepAnswersNext := by
  refine ⟨exec_answers, fun s => ?_⟩
  unfold step
  split
  · exact ⟨s, rfl⟩
  · split
    · exact ⟨s, rfl⟩
    · split
      · exact exec_answers _ s
      · exact ⟨_, rfl⟩

/-! ### Operands -/

theorem rep_of_not_fits {c : Config} {v : Int} (h : fits c v = false) :
    rep c v = .error ⟨.wordOverflow, some v⟩ := (rep_error_iff _ _ _).2 ⟨h, rfl⟩

section Access
variable {c : Config} {s : State} {x : Int}

theorem checkAddress_negative (h : x < 0) : checkAddress c x = .error ⟨.negativeAddress, some x⟩ :=
  (checkAddress_error_iff _ _ _).2 (.inl ⟨h, rfl⟩)

theorem checkAddress_over_limit (h : 0 ≤ x) (hl : admits c x.toNat = false) :
    checkAddress c x = .error ⟨.addressLimit, some x⟩ :=
  (checkAddress_error_iff _ _ _).2 (.inr ⟨h, hl, rfl⟩)

theorem checkAddress_admitted (h : 0 ≤ x) (ha : admits c x.toNat = true) :
    checkAddress c x = .ok x.toNat :=
  (checkAddress_ok_iff _ _ _).2 ⟨(Int.toNat_of_nonneg h).symm, ha⟩

theorem memRead_negative (h : x < 0) : memRead s x = .error ⟨.negativeAddress, some x⟩ :=
  (memRead_error_iff _ _ _).2 (checkAddress_negative h)

theorem memRead_over_limit (h : 0 ≤ x) (hl : admits s.cfg x.toNat = false) :
    memRead s x = .error ⟨.addressLimit, some x⟩ :=
  (memRead_error_iff _ _ _).2 (checkAddress_over_limit h hl)

theorem memRead_admitted (h : 0 ≤ x) (ha : admits s.cfg x.toNat = true) :
    memRead s x = .ok (s.mem.read x.toNat) :=
  (memRead_ok_iff _ _ _).2 ⟨_, checkAddress_admitted h ha, rfl⟩

end Access

section Operand
variable {s : State} {j : Nat} {m : Mode} {p x : Int} {e : Trap}

theorem paramWord_of_overflow (h : fits s.cfg (s.ip + j) = false) :
    paramWord s j = .error ⟨.wordOverflow, some (s.ip + j)⟩ := by
  rw [paramWord, rep_of_not_fits h, error_bind]

/-- The parameter word is the content of the cell at `ip + j` (30_encoding R80). -/
theorem paramWord_of_fits (h : fits s.cfg (s.ip + j) = true) :
    paramWord s j = memRead s (s.ip + j) := by
  rw [paramWord, rep_of_fits h, ok_bind]

theorem paramWord_negative (h : fits s.cfg (s.ip + j) = true) (hneg : s.ip + j < 0) :
    paramWord s j = .error ⟨.negativeAddress, some (s.ip + j)⟩ := by
  rw [paramWord_of_fits h, memRead_negative hneg]

theorem paramWord_over_limit {n : Nat} (h : fits s.cfg (s.ip + j) = true) (hn : s.ip + j = (n : Int))
    (hl : admits s.cfg n = false) : paramWord s j = .error ⟨.addressLimit, some (n : Int)⟩ := by
  rw [paramWord_of_fits h, hn]
  exact memRead_over_limit (Int.natCast_nonneg n) hl

theorem paramWord_admitted {n : Nat} (h : fits s.cfg (s.ip + j) = true) (hn : s.ip + j = (n : Int))
    (ha : admits s.cfg n = true) : paramWord s j = .ok (s.mem.read n) := by
  rw [paramWord_of_fits h, hn]
  exact memRead_admitted (Int.natCast_nonneg n) ha

theorem resolveIn_of_paramWord_error (h : paramWord s j = .error e) (m : Mode) :
    resolveIn s j m = .error e := by rw [resolveIn, h, error_bind]

theorem resolveOut_of_paramWord_error (h : paramWord s j = .error e) (m : Mode) :
    resolveOut s j m = .error e := by rw [resolveOut, h, error_bind]

theorem resolveIn_immediate (h : paramWord s j = .ok p) : resolveIn s j .immediate = .ok p :=
  (resolveIn_ok_iff _ _ _ _).2 ⟨p, h, rfl⟩

theorem resolveIn_relative_overflow (h : paramWord s j = .ok p) (hf : fits s.cfg (s.rb + p) = false) :
    resolveIn s j .relative = .error ⟨.wordOverflow, some (s.rb + p)⟩ := by
  simp only [resolveIn, h, ok_bind, rep_of_not_fits hf, error_bind]

theorem resolveOut_relative_overflow (h : paramWord s j = .ok p)
    (hf : fits s.cfg (s.rb + p) = false) :
    resolveOut s j .relative = .error ⟨.wordOverflow, some (s.rb + p)⟩ := by
  simp only [resolveOut, h, ok_bind, rep_of_not_fits hf, error_bind]

/-- In mode `m` the parameter word `p` names the address `x`, which need not be legal: `p` itself in
position mode, the representable sum with `rb` in relative mode (R80, R81). -/
def NamesAddress (s : State) (p : Int) (m : Mode) (x : Int) : Prop :=
  (m = .position ∧ x = p) ∨ (m = .relative ∧ x = s.rb + p ∧ fits s.cfg x = true)

/-- An input operand that an address names is the content of that cell. -/
theorem resolveIn_of_namesAddress (h : paramWord s j = .ok p) (hx : NamesAddress s p m x) :
    resolveIn s j m = memRead s x := by
  rcases hx with ⟨rfl, rfl⟩ | ⟨rfl, rfl, hf⟩
  · simp only [resolveIn, h, ok_bind]
  · simp only [resolveIn, h, ok_bind, rep_of_fits hf]

/-- An output operand is the address itself, checked. -/
theorem resolveOut_of_namesAddress (h : paramWord s j = .ok p) (hx : NamesAddress s p m x) :
    resolveOut s j m = checkAddress s.cfg x := by
  rcases hx with ⟨rfl, rfl⟩ | ⟨rfl, rfl, hf⟩
  · simp only [resolveOut, h, ok_bind]
  · simp only [resolveOut, h, ok_bind, rep_of_fits hf]

end Operand

/-- Settles O19: the checks of the parameter word, then those of the address that it names. -/
theorem inputOperandByMode : Obligations.InputOperandByMode := by
  intro s j
  refine ⟨fun m hf => resolveIn_of_paramWord_error (paramWord_of_overflow hf) m,
    fun m hf hneg => resolveIn_of_paramWord_error (paramWord_negative hf hneg) m, fun n hf hn =>
    ⟨fun m hl => resolveIn_of_paramWord_error (paramWord_over_limit hf hn hl) m, fun ha => ?_⟩⟩
  have hp := paramWord_admitted hf hn ha
  refine ⟨resolveIn_immediate hp, resolveIn_relative_overflow hp, fun m x hx => ?_⟩
  rw [resolveIn_of_namesAddress hp hx]
  exact ⟨memRead_negative, memRead_over_limit, memRead_admitted⟩

/-! ### The first fault of an instruction -/

section FirstFault
variable {s : State} {e : Trap} {k : Kind} {f : Int → Int → Except Trap Int} {taken : Int → Bool}
  {m1 m2 m3 : Mode} {a b r : Int} {d : Nat}

theorem storeResult_of_first (ha : resolveIn s 1 m1 = .error e) :
    storeResult k f m1 m2 m3 s = .next (s.takeFault e) := by
  simp only [storeResult, ha, error_bind, conclude]

theorem storeResult_of_second (ha : resolveIn s 1 m1 = .ok a) (hb : resolveIn s 2 m2 = .error e) :
    storeResult k f m1 m2 m3 s = .next (s.takeFault e) := by
  simp only [storeResult, ha, hb, ok_bind, error_bind, conclude]

theorem storeResult_of_output (ha : resolveIn s 1 m1 = .ok a) (hb : resolveIn s 2 m2 = .ok b)
    (hd : resolveOut s 3 m3 = .error e) : storeResult k f m1 m2 m3 s = .next (s.takeFault e) := by
  simp only [storeResult, ha, hb, hd, ok_bind, error_bind, conclude]

theorem storeResult_of_result (ha : resolveIn s 1 m1 = .ok a) (hb : resolveIn s 2 m2 = .ok b)
    (hd : resolveOut s 3 m3 = .ok d) (hr : f a b = .error e) :
    storeResult k f m1 m2 m3 s = .next (s.takeFault e) := by
  simp only [storeResult, ha, hb, hd, hr, ok_bind, error_bind, conclude]

theorem storeResult_of_next_ip (ha : resolveIn s 1 m1 = .ok a) (hb : resolveIn s 2 m2 = .ok b)
    (hd : resolveOut s 3 m3 = .ok d) (hr : f a b = .ok r) (hi : fits s.cfg (s.ip + 4) = false) :
    storeResult k f m1 m2 m3 s = .next (s.takeFault ⟨.wordOverflow, some (s.ip + 4)⟩) := by
  simp only [storeResult, ha, hb, hd, hr, rep_of_not_fits hi, ok_bind, error_bind, conclude]

theorem jumpWhen_of_first (ha : resolveIn s 1 m1 = .error e) :
    jumpWhen k taken m1 m2 s = .next (s.takeFault e) := by
  simp only [jumpWhen, ha, error_bind, conclude]

theorem jumpWhen_of_second (ha : resolveIn s 1 m1 = .ok a) (hb : resolveIn s 2 m2 = .error e) :
    jumpWhen k taken m1 m2 s = .next (s.takeFault e) := by
  simp only [jumpWhen, ha, hb, ok_bind, error_bind, conclude]

theorem execOut_of_operand (ha : resolveIn s 1 m1 = .error e) :
    execOut m1 s = .next (s.takeFault e) := by
  simp only [execOut, ha, error_bind, conclude]

theorem execOut_of_next_ip (ha : resolveIn s 1 m1 = .ok a) (hi : fits s.cfg (s.ip + 2) = false) :
    execOut m1 s = .next (s.takeFault ⟨.wordOverflow, some (s.ip + 2)⟩) := by
  simp only [execOut, ha, rep_of_not_fits hi, ok_bind, error_bind, conclude]

theorem execArb_of_operand (ha : resolveIn s 1 m1 = .error e) :
    execArb m1 s = .next (s.takeFault e) := by
  simp only [execArb, ha, error_bind, conclude]

/-- Input takes the fault of its output address before it looks at the queue (30_encoding R81). -/
theorem execInp_of_output (hd : resolveOut s 1 m1 = .error e) :
    execInp m1 s = .next (s.takeFault e) := by
  simp only [execInp, hd, error_bind, conclude]

theorem execInp_of_next_ip (hd : resolveOut s 1 m1 = .ok d) (hq : s.inq ≠ [])
    (hi : fits s.cfg (s.ip + 2) = false) :
    execInp m1 s = .next (s.takeFault ⟨.wordOverflow, some (s.ip + 2)⟩) := by
  obtain ⟨v, rest, hq⟩ := List.exists_cons_of_ne_nil hq
  simp only [execInp, hd, hq, rep_of_not_fits hi, ok_bind, error_bind, conclude]

end FirstFault

/-- Settles O20: as for an input operand, but that the address itself is the answer; and Input takes the
fault of its output address first. -/
theorem outputOperandByMode : Obligations.OutputOperandByMode := by
  refine ⟨fun s j => ?_, fun s m e h => execInp_of_output h⟩
  refine ⟨fun m hf => resolveOut_of_paramWord_error (paramWord_of_overflow hf) m,
    fun m hf hneg => resolveOut_of_paramWord_error (paramWord_negative hf hneg) m, fun n hf hn =>
    ⟨fun m hl => resolveOut_of_paramWord_error (paramWord_over_limit hf hn hl) m, fun ha => ?_⟩⟩
  have hp := paramWord_admitted hf hn ha
  refine ⟨resolveOut_relative_overflow hp, fun m x hx => ?_⟩
  rw [resolveOut_of_namesAddress hp hx]
  exact ⟨checkAddress_negative, checkAddress_over_limit, checkAddress_admitted⟩

/-- With its operands resolved, an F3 instruction faults on a sum or product that is not representable,
and otherwise on an `ip + 4` that is not (60_exceptions R205). -/
theorem storing_faults_after_operands {s : State} {m1 m2 m3 : Mode} {a b : Int} {d : Nat} {i : Instr}
    (hi : i = .add m1 m2 m3 ∨ i = .mul m1 m2 m3 ∨ i = .lt m1 m2 m3 ∨ i = .eq m1 m2 m3)
    (ha : resolveIn s 1 m1 = .ok a) (hb : resolveIn s 2 m2 = .ok b) (hd : resolveOut s 3 m3 = .ok d) :
    (i = .add m1 m2 m3 → fits s.cfg (a + b) = false →
      exec i s = .next (s.takeFault ⟨.wordOverflow, some (a + b)⟩)) ∧
    (i = .mul m1 m2 m3 → fits s.cfg (a * b) = false →
      exec i s = .next (s.takeFault ⟨.wordOverflow, some (a * b)⟩)) ∧
    (fits s.cfg (s.ip + 4) = false → (i = .add m1 m2 m3 → fits s.cfg (a + b) = true) →
      (i = .mul m1 m2 m3 → fits s.cfg (a * b) = true) →
      exec i s = .next (s.takeFault ⟨.wordOverflow, some (s.ip + 4)⟩)) := by
  refine ⟨?_, ?_, fun hip hsum hproduct => ?_⟩
  · rintro rfl hr
    exact storeResult_of_result ha hb hd (rep_of_not_fits hr)
  · rintro rfl hr
    exact storeResult_of_result ha hb hd (rep_of_not_fits hr)
  · rcases hi with rfl | rfl | rfl | rfl
    · exact storeResult_of_next_ip ha hb hd (rep_of_fits (hsum rfl)) hip
    · exact storeResult_of_next_ip ha hb hd (rep_of_fits (hproduct rfl)) hip
    · exact storeResult_of_next_ip ha hb hd rfl hip
    · exact storeResult_of_next_ip ha hb hd rfl hip

/-- Settles O21: each check in turn, those before it having answered a value. -/
theorem firstFaultDecides : Obligations.FirstFaultDecides := by
  refine ⟨fun s m1 m2 m3 i hi => ?_, fun s m1 m2 e i hi ha => ?_, fun s m1 m2 c e i hi ha hb => ?_,
    fun s m1 a => execOut_of_next_ip, fun s m1 d => execInp_of_next_ip⟩
  · obtain ⟨k, f, hexec⟩ := exec_eq_storeResult hi s
    exact ⟨fun e ha => hexec.trans (storeResult_of_first ha),
      fun a e ha hb => hexec.trans (storeResult_of_second ha hb),
      fun a b e ha hb hd => hexec.trans (storeResult_of_output ha hb hd),
      fun a b d => storing_faults_after_operands hi⟩
  · rcases hi with rfl | rfl | rfl | rfl
    exacts [execOut_of_operand ha, execArb_of_operand ha, jumpWhen_of_first ha, jumpWhen_of_first ha]
  · rcases hi with rfl | rfl
    exacts [jumpWhen_of_second ha hb, jumpWhen_of_second ha hb]

/-! ### Pseudo-instructions -/

/-- Settles O60: the effect of the instruction that each expands to, with the immediate operand 0, -1 or
1 that the expansion writes. -/
theorem pseudoInstructionsDoAsTabled : Obligations.PseudoInstructionsDoAsTabled := by
  refine ⟨fun s m1 m3 a d ha hd hip => ⟨fun hp ha' => ?_, fun hp ha' => ?_⟩, fun s m2 g hp hg => ?_,
    fun s hp hrb hip => ?_, fun src dst c t => ⟨rfl, rfl, rfl, rfl, rfl, rfl⟩⟩
  · have hadd := (Effect.add ha (resolveIn_immediate hp) hd (by rwa [add_zero]) hip).exec_eq
    rwa [add_zero] at hadd
  · have hmul := (Effect.mul ha (resolveIn_immediate hp) hd (by rwa [mul_neg_one]) hip).exec_eq
    rwa [mul_neg_one] at hmul
  · exact (Effect.jtTaken (resolveIn_immediate hp) hg one_ne_zero).exec_eq
  · have harb := (Effect.arb (resolveIn_immediate hp) (by rwa [add_zero]) hip).exec_eq
    rwa [add_zero] at harb

/-! ### Assembly text -/

theorem allOrNone_eq_some_iff {l : List (Option Int)} {vs : List Int} :
    allOrNone l = some vs ↔ l = vs.map some := by
  induction l generalizing vs with
  | nil => cases vs <;> simp [allOrNone]
  | cons x l ih =>
    cases x with
    | none => cases vs <;> simp [allOrNone]
    | some v =>
      cases h : allOrNone l with
      | none => cases vs <;> simp_all [allOrNone]
      | some us => cases vs <;> simp_all [allOrNone]

/-- The instruction of a kind with operands: the well-formed one whose modes are those of the forms. -/
theorem asmInstr_eq_some_iff {k : Kind} {ops : List AsmOperand} {i : Instr} :
    asmInstr k ops = some i ↔
      i.kind = k ∧ i.modes = ops.map AsmOperand.mode ∧ i.wellFormed = true := by
  have hwith : (instrOf k fun j => ((ops[j - 1]?).map AsmOperand.mode).getD .position) =
      instrWith k (ops.map AsmOperand.mode) := by simp only [instrWith, List.getElem?_map]
  simp only [asmInstr, hwith, Option.ite_none_right_eq_some, Option.some.injEq]
  constructor
  · rintro ⟨hlen, hwf, rfl⟩
    exact ⟨instrWith_kind _ _, instrWith_modes (by rw [List.length_map, hlen]), hwf⟩
  · rintro ⟨rfl, hmodes, hwf⟩
    refine ⟨by rw [← i.modes_length, hmodes, List.length_map], ?_⟩
    rw [← hmodes, instrWith_kind_modes]
    exact ⟨hwf, rfl⟩

theorem AsmBody.expand_of_ne_word {b : AsmBody} (h : ∀ vs, b ≠ .word vs) :
    ∃ k ops, b.expand = .core k ops := by
  cases b with
  | word vs => exact absurd rfl (h vs)
  | _ => exact ⟨_, _, rfl⟩

section Core
variable {b : AsmBody} {k : Kind} {ops : List AsmOperand} (h : b.expand = .core k ops)
include h

theorem AsmBody.size_of_core : b.size = k.length := by rw [AsmBody.size, h]

/-- The words of an instruction line: its encoding, and the values of its operands (R88). -/
theorem AsmBody.words_of_core (labels : List (String × Nat)) (ws : List Int) :
    b.words labels = some ws ↔ ∃ i ps, asmInstr k ops = some i ∧
      ops.map (AsmOperand.resolve labels) = ps.map some ∧ ws = encode i :: ps := by
  have hvalues (ps : List Int) :=
    allOrNone_eq_some_iff (l := ops.map (AsmOperand.resolve labels)) (vs := ps)
  simp only [AsmBody.words, h, ← hvalues, encodeWords]
  cases asmInstr k ops <;> cases allOrNone (ops.map (AsmOperand.resolve labels)) <;> simp [eq_comm]

end Core

theorem AsmOperand.mode_eq_immediate_iff (o : AsmOperand) :
    o.mode = .immediate ↔ ∃ v, o = .immediate v := by
  cases o <;> simp [AsmOperand.mode]

/-- Operands of the right count and with no immediate output make an instruction. -/
theorem exists_asmInstr {k : Kind} {ops : List AsmOperand} (hlen : ops.length = k.arity)
    (hout : k.outputs = 1 → ∀ v, ops.getLast? ≠ some (.immediate v)) :
    ∃ i, asmInstr k ops = some i := by
  have hmodes : (instrWith k (ops.map AsmOperand.mode)).modes = ops.map AsmOperand.mode :=
    instrWith_modes (by rw [List.length_map, hlen])
  refine ⟨_, asmInstr_eq_some_iff.2 ⟨instrWith_kind _ _, hmodes, (Instr.wellFormed_iff _).2 ?_⟩⟩
  rw [instrWith_kind, hmodes, List.getLast?_map]
  intro h1 himm
  obtain ⟨o, ho, hmode⟩ := Option.map_eq_some_iff.1 himm
  obtain ⟨v, rfl⟩ := o.mode_eq_immediate_iff.1 hmode
  exact hout h1 v ho

/-- The first line that bears a name gives it the address after the lines before it. -/
theorem lookup_labelsFrom {before after : List AsmLine} {line : AsmLine} {name : String} (a : Nat)
    (hline : line.label = some name) (hbefore : ∀ l ∈ before, l.label ≠ some name) :
    (labelsFrom a (before ++ line :: after)).lookup name =
      some (a + (before.map AsmLine.size).sum) := by
  induction before generalizing a with
  | nil => simp [labelsFrom, hline]
  | cons l before ih =>
    have hrest := ih (a + l.size) fun l' hl' => hbefore l' (List.mem_cons_of_mem _ hl')
    have hne := hbefore l List.mem_cons_self
    rw [List.map_cons, List.sum_cons, ← Nat.add_assoc, ← hrest, List.cons_append, labelsFrom]
    cases hl : l.label with
    | none => rfl
    | some other =>
      have hother : name ≠ other := fun hname => hne (by rw [hl, hname])
      simp only [List.lookup_cons, beq_false_of_ne hother]

/-- Settles O59: the words of an instruction line and of `.word`, the labels, and the operand forms. -/
theorem assembledLineDecodes : Obligations.AssembledLineDecodes := by
  refine ⟨fun c labels b ws hws hb => ?_, fun labels b k ops ps hb hlen hout hps => ?_,
    fun labels vs ws => allOrNone_eq_some_iff, fun before after line name hline hbefore => ?_,
    fun v x labels hv => ⟨hv, hv, hv, by rw [AsmOperand.resolve, hv, Option.map_some]⟩,
    fun v => ⟨rfl, rfl, fun _ => rfl⟩⟩
  · obtain ⟨k, ops, hexpand⟩ := AsmBody.expand_of_ne_word hb
    obtain ⟨i, ps, hi, hps, rfl⟩ := (AsmBody.words_of_core hexpand labels ws).1 hws
    obtain ⟨rfl, hmodes, hwf⟩ := asmInstr_eq_some_iff.1 hi
    have hlen : ps.length = i.kind.arity := by
      simpa [← i.modes_length, hmodes] using (congrArg List.length hps).symm
    refine ⟨_, ops, i, ps, hexpand, rfl, rfl, hmodes, hps, hwf, decode_encode c hwf, hlen, ?_⟩
    rw [AsmBody.size_of_core hexpand, List.length_cons, hlen, Kind.length, Nat.add_comm]
  · obtain ⟨i, hi⟩ := exists_asmInstr hlen hout
    exact ⟨encode i, (AsmBody.words_of_core hb labels _).2 ⟨i, ps, hi, hps, rfl⟩⟩
  · simpa using lookup_labelsFrom (after := after) 0 hline hbefore

end Sys2Proof.Machine

/-! PROOFS. Arithmetic (40_arithmetic): the results of Add and Multiply, and the causes that executing an
instruction can raise. -/

/-! ### Results -/

namespace Sys2Proof.Machine

/-- Settles O22: the state given is the effect of Add, and of Multiply, on the resolved operands. -/
theorem arithmeticStoresExactResult : Obligations.ArithmeticStoresExactResult :=
  fun _ _ _ _ _ _ _ ha hb hd hip =>
    ⟨fun hsum => (Effect.add ha hb hd hsum hip).exec_eq,
      fun hproduct => (Effect.mul ha hb hd hproduct hip).exec_eq⟩

end Sys2Proof.Machine

/-! ### The causes raised after decode -/

namespace Sys2Proof.Machine

/-- The causes left once an instruction is decoded: those of a value or an address out of bounds. -/
def IsBoundsCause (c : Cause) : Prop :=
  c = .negativeAddress ∨ c = .wordOverflow ∨ c = .addressLimit

/-- A sequence of checks that answers only values with `Q` and raises only bounds causes: `Checked`,
without the causes that only decode raises. -/
def BoundsChecked {α : Type} (Q : α → Prop) : Except Trap α → Prop
  | .ok a => Q a
  | .error e => IsBoundsCause e.cause

theorem BoundsChecked.of_error {α : Type} {x : Except Trap α}
    (h : ∀ e, x = .error e → IsBoundsCause e.cause) : BoundsChecked (fun _ => True) x := by
  cases x with
  | ok a => trivial
  | error e => exact h e rfl

theorem BoundsChecked.bind {α β : Type} {P : α → Prop} {Q : β → Prop} {x : Except Trap α}
    {f : α → Except Trap β} (hx : BoundsChecked P x) (hf : ∀ a, P a → BoundsChecked Q (f a)) :
    BoundsChecked Q (x >>= f) := by
  cases x with
  | ok a => exact hf a hx
  | error e => exact hx

theorem rep_boundsChecked (c : Config) (v : Int) : BoundsChecked (fun _ => True) (rep c v) :=
  .of_error fun e he => by
    obtain ⟨-, rfl⟩ := (rep_error_iff _ _ _).1 he
    exact .inr (.inl rfl)

theorem checkAddress_boundsChecked (c : Config) (a : Int) :
    BoundsChecked (fun _ => True) (checkAddress c a) :=
  .of_error fun e he => by
    rcases (checkAddress_error_iff _ _ _).1 he with ⟨-, rfl⟩ | ⟨-, -, rfl⟩
    · exact .inl rfl
    · exact .inr (.inr rfl)

theorem memRead_boundsChecked (s : State) (a : Int) : BoundsChecked (fun _ => True) (memRead s a) :=
  (checkAddress_boundsChecked _ a).bind fun _ _ => trivial

theorem paramWord_boundsChecked (s : State) (j : Nat) :
    BoundsChecked (fun _ => True) (paramWord s j) :=
  (rep_boundsChecked _ _).bind fun a _ => memRead_boundsChecked s a

theorem resolveIn_boundsChecked (s : State) (j : Nat) (m : Mode) :
    BoundsChecked (fun _ => True) (resolveIn s j m) :=
  (paramWord_boundsChecked s j).bind fun p _ => by
    cases m with
    | position => exact memRead_boundsChecked s p
    | immediate => trivial
    | relative => exact (rep_boundsChecked _ _).bind fun a _ => memRead_boundsChecked s a

/-- The mode of a well-formed instruction's output operand is not the one that `resolveOut` refuses
(30_encoding R77). -/
theorem resolveOut_boundsChecked (s : State) (j : Nat) {m : Mode} (hm : m.isOutputMode = true) :
    BoundsChecked (fun _ => True) (resolveOut s j m) :=
  (paramWord_boundsChecked s j).bind fun p _ => by
    cases m with
    | position => exact checkAddress_boundsChecked _ p
    | immediate => cases hm
    | relative => exact (rep_boundsChecked _ _).bind fun d _ => checkAddress_boundsChecked _ d

/-- `o` is what some checks of `s` conclude in: a state with the same fault register, or a bounds cause. -/
def EndsInBounds (s : State) (o : Host.Outcome State Fault Refusal) : Prop :=
  ∃ x, o = conclude s x ∧ BoundsChecked (fun u => u.fault = s.fault) x

theorem storeResult_endsInBounds (k : Kind) {f : Int → Int → Except Trap Int} (m1 m2 : Mode) {m3 : Mode}
    (s : State) (hm : m3.isOutputMode = true) (hf : ∀ a b, BoundsChecked (fun _ => True) (f a b)) :
    EndsInBounds s (storeResult k f m1 m2 m3 s) :=
  ⟨_, rfl, (resolveIn_boundsChecked s 1 m1).bind fun a _ =>
    (resolveIn_boundsChecked s 2 m2).bind fun b _ => (resolveOut_boundsChecked s 3 hm).bind fun _ _ =>
    (hf a b).bind fun _ _ => (rep_boundsChecked _ _).bind fun _ _ => rfl⟩

theorem jumpWhen_endsInBounds (k : Kind) (taken : Int → Bool) (m1 m2 : Mode) (s : State) :
    EndsInBounds s (jumpWhen k taken m1 m2 s) :=
  ⟨_, rfl, (resolveIn_boundsChecked s 1 m1).bind fun _ _ =>
    (resolveIn_boundsChecked s 2 m2).bind fun _ _ => by
      split
      · exact rfl
      · exact (rep_boundsChecked _ _).bind fun _ _ => rfl⟩

theorem execInp_endsInBounds {m1 : Mode} (s : State) (hm : m1.isOutputMode = true) :
    EndsInBounds s (execInp m1 s) :=
  ⟨_, rfl, (resolveOut_boundsChecked s 1 hm).bind fun _ _ => by
    split
    · exact rfl
    · exact (rep_boundsChecked _ _).bind fun _ _ => rfl⟩

theorem execOut_endsInBounds (m1 : Mode) (s : State) : EndsInBounds s (execOut m1 s) :=
  ⟨_, rfl, (resolveIn_boundsChecked s 1 m1).bind fun a _ => (rep_boundsChecked _ _).bind fun _ _ =>
    State.forward_fault (s.logOutput a) a⟩

theorem execArb_endsInBounds (m1 : Mode) (s : State) : EndsInBounds s (execArb m1 s) :=
  ⟨_, rfl, (resolveIn_boundsChecked s 1 m1).bind fun _ _ => (rep_boundsChecked _ _).bind fun _ _ =>
    (rep_boundsChecked _ _).bind fun _ _ => rfl⟩

theorem exec_endsInBounds {i : Instr} (s : State) (hwf : i.wellFormed = true) :
    EndsInBounds s (exec i s) := by
  cases i with
  | add m1 m2 m3 => exact storeResult_endsInBounds _ _ _ s hwf fun _ _ => rep_boundsChecked _ _
  | mul m1 m2 m3 => exact storeResult_endsInBounds _ _ _ s hwf fun _ _ => rep_boundsChecked _ _
  | inp m1 => exact execInp_endsInBounds s hwf
  | out m1 => exact execOut_endsInBounds m1 s
  | jt m1 m2 => exact jumpWhen_endsInBounds _ _ m1 m2 s
  | jf m1 m2 => exact jumpWhen_endsInBounds _ _ m1 m2 s
  | lt m1 m2 m3 => exact storeResult_endsInBounds _ _ _ s hwf fun _ _ => trivial
  | eq m1 m2 m3 => exact storeResult_endsInBounds _ _ _ s hwf fun _ _ => trivial
  | arb m1 => exact execArb_endsInBounds m1 s
  | hlt => exact ⟨.ok s.halt, rfl, rfl⟩

/-- Settles O17: Halt ends without a record, and where the checks of the others end in one, its cause is
that of the check that raised. -/
theorem executionFaultCauses : Obligations.ExecutionFaultCauses := by
  intro i s t r hwf hf h hr
  refine ⟨?_, ?_⟩
  · rintro rfl
    cases h
    simp [hf] at hr
  · obtain ⟨x, hx, hchecked⟩ := exec_endsInBounds s hwf
    rcases conclude_next (hx ▸ h) with rfl | ⟨e, rfl, rfl⟩
    · have hkeep : t.fault = s.fault := hchecked
      simp [hkeep, hf] at hr
    · obtain rfl : faultRecord s e = r := by simpa using hr
      exact hchecked

end Sys2Proof.Machine

/-! PROOFS. Input and output (41_io): what Input and Output complete with, and the pipe over many steps. -/

/-! ### Completion -/

namespace Sys2Proof.Machine

/-- Settles O24: the state given is the effect of an Input, with the tail of the queue named. -/
theorem inputConsumesHead : Obligations.InputConsumesHead := by
  intro s m1 d v rest hd hq hip
  obtain rfl : rest = s.inq.tail := by simp [hq]
  exact (Effect.inp hd hq hip).exec_eq

/-- Forwarding writes the own queue and the peers, and nothing else (41_io R124). -/
theorem State.forward_eq (s : State) (v : Int) :
    s.forward v = { s with inq := (s.forward v).inq, peers := (s.forward v).peers } := by
  simp only [State.forward]
  split
  · rfl
  · simp only [State.deliver]
    split <;> rfl

/-- Settles O26: an Output's effect is to log and forward its operand; of what forwarding may write,
`output_inq` gives the queue and `output_peers` the peers. -/
theorem outputAppendsAndForwards : Obligations.OutputAppendsAndForwards := by
  intro s m1 a ha hip
  rw [(Effect.out ha hip).exec_eq, State.forward_eq, State.output_inq, State.output_peers]
  rfl

end Sys2Proof.Machine

/-! ### The pipe over many steps -/

namespace Sys2Proof.Machine

/-- From `s` to `t` the log gains `vs`, and so does the queue of the instance of identity `target`, of
which nothing else changes; whose turn it is and the pipe stay. -/
structure PipedTo (target : InstanceId) (vs : List Int) (s t : State) : Prop where
  self_eq : t.self = s.self
  pipe_eq : t.pipe = s.pipe
  outlog_eq : t.outlog = s.outlog ++ vs
  target_eq : t.instanceAt target = (s.instanceAt target).map fun m => { m with inq := m.inq ++ vs }

section Pipe
variable {s t u : State} {target : InstanceId} {vs ws : List Int}

theorem PipedTo.refl (target : InstanceId) (s : State) : PipedTo target [] s s where
  self_eq := rfl
  pipe_eq := rfl
  outlog_eq := by simp
  target_eq := by simp

theorem PipedTo.trans (hst : PipedTo target vs s t) (htu : PipedTo target ws t u) :
    PipedTo target (vs ++ ws) s u where
  self_eq := htu.self_eq.trans hst.self_eq
  pipe_eq := htu.pipe_eq.trans hst.pipe_eq
  outlog_eq := by rw [htu.outlog_eq, hst.outlog_eq, List.append_assoc]
  target_eq := by
    rw [htu.target_eq, hst.target_eq, Option.map_map]
    simp [Function.comp_def]

/-- A change that leaves the log, the pipe and the peers alone pipes nothing. -/
theorem PipedTo.of_kept (hother : target ≠ s.self) (hself : t.self = s.self) (hpipe : t.pipe = s.pipe)
    (hlog : t.outlog = s.outlog) (hpeers : t.peers = s.peers) : PipedTo target [] s t where
  self_eq := hself
  pipe_eq := hpipe
  outlog_eq := by simp [hlog]
  target_eq := by
    rw [State.instanceAt_other hother, State.instanceAt_other (hself ▸ hother), hpeers]
    simp

section Step
variable (hp : s.pipe = some target) (hother : target ≠ s.self)
include hp hother

/-- Output logs its operand and delivers it to the pipe target in the same step (41_io R124). -/
theorem PipedTo.output (a : Int) : PipedTo target [a] s ((s.logOutput a).forward a) where
  self_eq := by simp
  pipe_eq := by simp
  outlog_eq := by simp
  target_eq := by
    rw [State.instanceAt_other hother, State.instanceAt_other (by simpa using hother),
      State.output_findKey]
    simp only [hp, hother, ne_eq, not_false_eq_true, and_self, if_true]
    rfl

/-- Of all effects only Output's writes the log or a peer. -/
theorem Effect.pipedTo {i : Instr} (hx : Effect i s t) : ∃ vs, PipedTo target vs s t := by
  cases hx with
  | @out _ _ a ha hip =>
    have hout := PipedTo.output hp hother a
    exact ⟨_, hout.trans (.of_kept (hout.self_eq ▸ hother) rfl rfl rfl rfl)⟩
  | _ => exact ⟨[], .of_kept hother rfl rfl rfl rfl⟩

theorem callStep_pipedTo : ∃ vs, PipedTo target vs s (callStep s).1 := by
  obtain ⟨t, hstep⟩ := everyStepAnswersNext.2 s
  rw [callStep_of_next hstep]
  rcases step_effect hstep with ⟨-, rfl⟩ | ⟨-, -, rfl⟩ | ⟨-, -, e, rfl⟩ | ⟨-, -, i, -, hx⟩
  · exact ⟨[], .refl target _⟩
  · exact ⟨[], .refl target _⟩
  · exact ⟨[], .of_kept hother rfl rfl rfl rfl⟩
  · exact hx.pipedTo hp hother

end Step

theorem stepTimes_pipedTo (n : Nat) (hp : s.pipe = some target) (hother : target ≠ s.self) :
    ∃ vs, PipedTo target vs s (stepTimes n s) := by
  induction n generalizing s with
  | zero => exact ⟨[], .refl target s⟩
  | succ n ih =>
    obtain ⟨vs, hfirst⟩ := callStep_pipedTo hp hother
    obtain ⟨ws, hrest⟩ := ih (hfirst.pipe_eq.trans hp) (hfirst.self_eq ▸ hother)
    exact ⟨vs ++ ws, hfirst.trans hrest⟩

end Pipe

/-- Settles O38: each step pipes the values it logs, and the values piped by successive steps stand one
after the other in the log and in the target's queue. -/
theorem pipeKeepsOutputOrder : Obligations.PipeKeepsOutputOrder := by
  intro n s target m hp hother hm
  obtain ⟨vs, hpiped⟩ := stepTimes_pipedTo n hp hother
  exact ⟨vs, hpiped.outlog_eq, by rw [hpiped.target_eq, hm, Option.map_some]⟩

end Sys2Proof.Machine

/-! PROOFS. The jumps (42_control): where they go, and the fault that a bad target raises one step later. -/

namespace Sys2Proof.Machine

/-- A jump that falls through computes `ip + 3` and faults if that is not representable. -/
theorem jumpWhen_of_next_ip {s : State} {k : Kind} {taken : Int → Bool} {m1 m2 : Mode} {c g : Int}
    (hc : resolveIn s 1 m1 = .ok c) (hg : resolveIn s 2 m2 = .ok g) (ht : taken c = false)
    (hip : fits s.cfg (s.ip + 3) = false) :
    jumpWhen k taken m1 m2 s = .next (s.takeFault ⟨.wordOverflow, some (s.ip + 3)⟩) := by
  simp only [jumpWhen, hc, hg, ht, rep_of_not_fits hip, ok_bind, error_bind, conclude,
    Bool.false_eq_true, if_false]

/-- Settles O27: taken or falling through, the state given is the jump's effect; the overflow of `ip + 3`
is met on the path that falls through. -/
theorem jumpsSetIp : Obligations.JumpsSetIp := by
  intro s m1 m2 c g hc hg
  refine ⟨fun hne => (Effect.jtTaken hc hg hne).exec_eq, ?_, ?_,
    fun hne hip => (Effect.jfFallsThrough hc hg hne hip).exec_eq, ?_, fun hne hip => ?_⟩
  · rintro rfl hip
    exact (Effect.jtFallsThrough hc hg hip).exec_eq
  · rintro rfl
    exact (Effect.jfTaken hc hg).exec_eq
  · rintro rfl hip
    exact jumpWhen_of_next_ip hc hg rfl hip
  · exact jumpWhen_of_next_ip hc hg (beq_false_of_ne hne) hip

/-- Settles O28: the taken jump's effect does not depend on the target, and the state that it leaves is
still running, so the next step takes the fault of its own fetch or decode. -/
theorem jumpTargetFaultsAtNextFetch : Obligations.JumpTargetFaultsAtNextFetch := by
  intro s m1 m2 k c g hs hc hg htaken
  refine ⟨?_, fun hneg => (fetchFaultHasNoWord (s.retire k g) hs).1 hneg, fun n hgn hadm hzero => ?_⟩
  · rcases htaken with ⟨hd, rfl, hne⟩ | ⟨hd, rfl, rfl⟩
    · exact (Effect.jtTaken hc hg hne).callStep_eq hs hd
    · exact (Effect.jfTaken hc hg).callStep_eq hs hd
  · have hword : memRead (s.retire k g) g = .ok 0 := memRead_ip (s := s.retire k g) hgn hadm hzero
    exact (illegalOpcodesFault (s.retire k g) 0 hs hword).2 le_rfl (.inl rfl)

end Sys2Proof.Machine

/-! PROOFS. Comparison (43_compare): the results of LessThan and Equals. -/

namespace Sys2Proof.Machine

/-- The truth values of R162, with the tested proposition as the condition. -/
theorem truthWord_decide (p : Prop) [Decidable p] : truthWord (decide p) = if p then 1 else 0 := by
  simp only [truthWord, decide_eq_true_eq]

theorem lessThanWord_eq (a b : Int) : lessThanWord a b = if a < b then 1 else 0 :=
  truthWord_decide (a < b)

theorem equalsWord_eq (a b : Int) : equalsWord a b = if a = b then 1 else 0 :=
  truthWord_decide (a = b)

/-- Settles O23: the states given are the effects of LessThan and of Equals on the resolved operands, with
the truth value that each stores written out. -/
theorem comparisonStoresTruth : Obligations.ComparisonStoresTruth := by
  intro s m1 m2 m3 a b d ha hb hd hip
  rw [← lessThanWord_eq, ← equalsWord_eq]
  exact ⟨(Effect.lt ha hb hd hip).exec_eq, (Effect.eq ha hb hd hip).exec_eq⟩

end Sys2Proof.Machine

/-! PROOFS. The system instructions (44_system): AdjustBase and its two overflows, Halt and the steps after
it. -/

/-! ### AdjustBase -/

namespace Sys2Proof.Machine

section AdjustBase
variable {s : State} {m1 : Mode} {a : Int}

/-- The sum for `rb` is checked before `ip + 2` (60_exceptions R205). -/
theorem execArb_of_new_base (ha : resolveIn s 1 m1 = .ok a) (hr : fits s.cfg (s.rb + a) = false) :
    execArb m1 s = .next (s.takeFault ⟨.wordOverflow, some (s.rb + a)⟩) := by
  simp only [execArb, ha, rep_of_not_fits hr, ok_bind, error_bind, conclude]

theorem execArb_of_next_ip (ha : resolveIn s 1 m1 = .ok a) (hr : fits s.cfg (s.rb + a) = true)
    (hip : fits s.cfg (s.ip + 2) = false) :
    execArb m1 s = .next (s.takeFault ⟨.wordOverflow, some (s.ip + 2)⟩) := by
  simp only [execArb, ha, rep_of_fits hr, rep_of_not_fits hip, ok_bind, error_bind, conclude]

end AdjustBase

/-- Settles O29: where both sums are representable the state given is AdjustBase's effect; the faults are
those of its two checks, in their order. -/
theorem adjustBaseAddsOperand : Obligations.AdjustBaseAddsOperand :=
  fun _ _ _ ha =>
    ⟨fun hr hip => (Effect.arb ha hr hip).exec_eq, execArb_of_new_base ha, execArb_of_next_ip ha⟩

end Sys2Proof.Machine

/-! ### Halt -/

namespace Sys2Proof.Machine

/-- A halted instance is left as it is, with the halted indicator (60_exceptions R214). -/
theorem callStep_of_halted {s : State} (hf : s.fault = none) (hh : s.halted = true) :
    callStep s = (s, .status .halted) := by
  have hstep : step s = .next s := by simp only [step, hf, hh, if_true]
  rw [callStep_of_next hstep, stepStatus_of_halted hf hh]

/-- Settles O30: Halt's effect is the halted state, which has the running state's empty fault register, so
every later step leaves it as it is. -/
theorem haltStopsWithoutAdvancing : Obligations.HaltStopsWithoutAdvancing := by
  refine ⟨fun s => Effect.hlt.exec_eq, fun s hs hd => ?_⟩
  have hfirst : callStep s = (s.halt, .status (.executed .hlt)) := by
    simpa [Instr.kind] using Effect.hlt.callStep_eq hs hd
  have hlater : callStep s.halt = (s.halt, .status .halted) := callStep_of_halted hs.1 rfl
  refine ⟨hfirst, fun n => ?_, hlater⟩
  rw [stepTimes, hfirst]
  exact stepTimes_of_fixed (by rw [hlater]) n

end Sys2Proof.Machine

/-! PROOFS. Exceptions (60_exceptions): the fault a step takes and the steps after it, what peek foretells,
the calls of the host, and the group of instances. -/

/-! ### Giving the turn -/

namespace Sys2Proof.Machine

/-- Giving the turn leaves the state as it is, or brings the record of a peer forward and puts the own one
among the peers. -/
theorem State.focus_some {s u : State} {target : InstanceId} (h : s.focus target = some u) :
    (target = s.self ∧ u = s) ∨
    (target ≠ s.self ∧ ∃ m, findKey s.peers target = some m ∧
      u = { m with
        self := target
        peers := putKey (dropKey s.peers target) s.self s.toInstance
        cfg := s.cfg }) := by
  unfold State.focus at h
  split at h
  · next hself => exact .inl ⟨hself, (Option.some.inj h).symm⟩
  · next hother =>
    cases hm : findKey s.peers target with
    | none => simp [hm] at h
    | some m => exact .inr ⟨hother, m, rfl, by simpa [hm, eq_comm] using h⟩

theorem State.focus_eq_none_iff (s : State) (target : InstanceId) :
    s.focus target = none ↔ s.instanceAt target = none := by
  unfold State.focus State.instanceAt
  split
  · simp
  · split <;> simp_all

@[simp] theorem State.instanceAt_self (s : State) : s.instanceAt s.self = some s.toInstance := by
  simp [State.instanceAt]

/-- Settles O54: the two records that change places are each found under their identity, before and
after. -/
theorem turnChangesNoInstance : Obligations.TurnChangesNoInstance := by
  refine fun s target => ⟨s.focus_eq_none_iff target, fun u hu => ?_⟩
  rcases State.focus_some hu with ⟨rfl, rfl⟩ | ⟨hother, m, hm, rfl⟩
  · exact ⟨rfl, rfl, fun _ => rfl⟩
  · refine ⟨rfl, rfl, fun id => ?_⟩
    by_cases ht : id = target
    · simp [State.instanceAt, ht, hother, hm]
    · by_cases hs : id = s.self
      · simp [State.instanceAt, findKey_putKey, hs, hother.symm]
      · simp [State.instanceAt, findKey_putKey, findKey_dropKey, ht, hs]

end Sys2Proof.Machine

/-! ### What a call can do -/

namespace Sys2Proof.Machine

/-- The changes of state that a call makes where it is not refused: one constructor for each call that
writes something. -/
inductive CallEffect (s : State) : HostCall → State → Prop where
  | nothing {c} : CallEffect s c s
  | step {t} : Machine.step s = .next t → CallEffect s .step t
  | appendInput {v} : fits s.cfg v = true →
      CallEffect s (.appendInput v) { s with inq := s.inq ++ [v] }
  | drainOutput {k} : k ≤ s.outlog.length →
      CallEffect s (.drainOutput k) { s with outlog := s.outlog.drop k }
  | truncateOutput {k} : k ≤ s.outlog.length →
      CallEffect s (.truncateOutput k) { s with outlog := s.outlog.take (s.outlog.length - k) }
  | pipeInto {other} : s.knows other = true →
      CallEffect s (.pipeInto other) { s with pipe := some other }
  | importState {snap} : CallEffect s (.importState snap) (s.restore snap)

/-- A call makes its change, or is refused and makes none. -/
theorem callHere_effect (s : State) (c : HostCall) : CallEffect s c (callHere s c).1 := by
  cases c with
  | step =>
    obtain ⟨t, hstep⟩ := everyStepAnswersNext.2 s
    rw [callHere, callStep_of_next hstep]
    exact .step hstep
  | appendInput v =>
    rw [callHere, callAppendInput]
    split
    · next hv => exact .appendInput hv
    · exact .nothing
  | drainOutput k =>
    rw [callHere, callDrainOutput]
    split
    · next hk => exact .drainOutput hk
    · exact .nothing
  | truncateOutput k =>
    rw [callHere, callTruncateOutput]
    split
    · next hk => exact .truncateOutput hk
    · exact .nothing
  | pipeInto other =>
    rw [callHere, callPipeInto]
    split
    · next hother => exact .pipeInto hother
    · exact .nothing
  | importState snap => exact .importState
  | _ => exact .nothing

end Sys2Proof.Machine

/-! ### Every action keeps the state good -/

namespace Sys2Proof.Machine

/-- When a program is accepted, and as what (70_reset R250). -/
theorem construct_eq_some_iff (c : Config) (program inputs : List Int) (m : Instance) :
    construct c program inputs = some m ↔
      (program.all (fits c) = true ∧ inputs.all (fits c) = true ∧ lengthAdmitted c program = true) ∧
        m = { Instance.reset with mem := Memory.image program, inq := inputs } := by
  rw [construct, Option.ite_none_right_eq_some, Option.some.injEq, eq_comm (b := m)]
  simp only [Bool.and_eq_true, and_assoc]

/-- The addresses of a program that is short enough are below MEM_LIMIT. -/
theorem admits_of_lengthAdmitted {c : Config} {program : List Int} {a : Nat}
    (h : lengthAdmitted c program = true) (ha : a < program.length) : admits c a = true := by
  cases hl : c.memLimit with
  | none => exact admits_of_unbounded hl a
  | some limit =>
    simp only [lengthAdmitted, hl, decide_eq_true_eq] at h
    simp only [admits, hl, decide_eq_true_eq]
    omega

/-- A new instance is good: its words are those of the program and of the inputs, or 0. -/
theorem construct_good {c : Config} {program inputs : List Int} {m : Instance}
    (h : construct c program inputs = some m) : m.Good c := by
  obtain ⟨⟨hprogram, hinputs, hlen⟩, rfl⟩ := (construct_eq_some_iff c program inputs m).1 h
  exact
    { memory_canonical := Memory.wf_image program
      cells_in_domain := (cellsInDomain_iff c _).2 fun e he => by
        obtain ⟨-, hword, -, haddr⟩ := Memory.mem_imageFrom program 0 e he
        exact ⟨admits_of_lengthAdmitted hlen (by omega), List.all_eq_true.1 hprogram _ hword⟩
      ip_in_domain := fits_zero c
      rb_in_domain := fits_zero c
      inputs_in_domain := hinputs
      outputs_in_domain := rfl
      halted_clean := nofun
      fault_at_ip := nofun }

theorem State.knows_congr {s u : State} (h : ∀ id, u.instanceAt id = s.instanceAt id)
    (id : InstanceId) : u.knows id = s.knows id := by rw [State.knows, State.knows, h]

theorem State.ne_self_of_unknown {s : State} {target : InstanceId} (h : s.knows target = false) :
    target ≠ s.self := by
  rintro rfl
  simp [State.knows] at h

section Changes
variable {s : State} (h : s.Good)
include h

/-- Good is said of the group, whoever's turn it is. -/
theorem State.Good.focus {u : State} {target : InstanceId} (hu : s.focus target = some u) :
    u.Good := by
  have hknows (id : InstanceId) : u.knows id = s.knows id :=
    State.knows_congr ((turnChangesNoInstance s target).2 u hu).2.2 id
  rcases State.focus_some hu with ⟨-, rfl⟩ | ⟨hother, m, hm, rfl⟩
  · exact h
  · have hmem := mem_of_findKey hm
    have hpeer {p} (hp : p ∈ putKey (dropKey s.peers target) s.self s.toInstance) :
        p = (s.self, s.toInstance) ∨ p ∈ s.peers := (mem_putKey hp).imp id mem_dropKey
    exact
      { parameters_valid := h.parameters_valid
        own_good := h.peers_good _ hmem
        peers_good := fun p hp => by
          rcases hpeer hp with rfl | hp
          · exact h.own_good
          · exact h.peers_good p hp
        peers_sorted := keysRise_putKey _ _ _ _ (keysRise_dropKey _ _ _ h.peers_sorted) (Nat.zero_le _)
        self_apart := by simp [findKey_putKey, findKey_dropKey, hother]
        own_pipe_known := fun t ht => (hknows t).trans (h.peer_pipes_known _ hmem t ht)
        peer_pipes_known := fun p hp t ht => (hknows t).trans (by
          rcases hpeer hp with rfl | hp
          · exact h.own_pipe_known t ht
          · exact h.peer_pipes_known p hp t ht) }

/-- A new peer with a good record and no pipe keeps the group good. -/
theorem State.Good.addPeer {target : InstanceId} {m : Instance} (hm : m.Good s.cfg)
    (hpipe : m.pipe = none) (hnew : s.knows target = false) :
    State.Good { s with peers := putKey s.peers target m } := by
  have hother := State.ne_self_of_unknown hnew
  have hknows (t : InstanceId) (ht : s.knows t = true) :
      State.knows { s with peers := putKey s.peers target m } t = true := by
    rw [State.knows_iff] at ht ⊢
    simp only [findKey_putKey]
    split
    · exact .inr rfl
    · exact ht
  exact
    { h with
      peers_good := fun p hp => by
        rcases mem_putKey hp with rfl | hp
        · exact hm
        · exact h.peers_good p hp
      peers_sorted := keysRise_putKey _ _ _ _ h.peers_sorted (Nat.zero_le _)
      self_apart := by simp [findKey_putKey, hother.symm, h.self_apart]
      own_pipe_known := fun t ht => hknows t (h.own_pipe_known t ht)
      peer_pipes_known := fun p hp t ht => by
        rcases mem_putKey hp with rfl | hp
        · simp [hpipe] at ht
        · exact hknows t (h.peer_pipes_known p hp t ht) }

/-- A pipe to an instance of the group keeps it good. -/
theorem State.Good.pipeInto {other : InstanceId} (hother : s.knows other = true) :
    State.Good { s with pipe := some other } := by
  have hknows (t : InstanceId) (ht : s.knows t = true) :
      State.knows { s with pipe := some other } t = true :=
    (State.knows_iff _ t).2 ((State.knows_iff s t).1 ht)
  exact
    { h with
      own_good := { h.own_good with }
      own_pipe_known := fun t ht => by cases ht; exact hknows _ hother
      peer_pipes_known := fun p hp t ht => hknows t (h.peer_pipes_known p hp t ht) }

/-- A log of which only entries are lost stays in the value domain. -/
theorem State.Good.withLog {log : List Int} (hlog : log ⊆ s.outlog) :
    State.Good { s with outlog := log } :=
  h.withOwn (m := { s.toInstance with outlog := log })
    { h.own_good with
      outputs_in_domain := List.all_eq_true.2 fun v hv =>
        List.all_eq_true.1 h.own_good.outputs_in_domain v (hlog hv) } rfl

/-- The pipe, which a snapshot leaves out, has no part in what a good record is. -/
theorem State.Good.restore {snap : Snapshot} (hsnap : snap.Good s.cfg) : (s.restore snap).Good := by
  have hreset : (Instance.reset.restore snap).Good s.cfg := hsnap
  exact h.withOwn (m := s.toInstance.restore snap) { hreset with } rfl

theorem CallEffect.keepsGood {c : HostCall} {t : State} (hx : CallEffect s c t)
    (hsnap : ∀ snap, c = .importState snap → snap.Good s.cfg) : t.Good := by
  cases hx with
  | nothing => exact h
  | step hstep => exact stepKeepsGood _ _ h hstep
  | appendInput hv => exact h.withOwn (h.own_good.enqueue hv) rfl
  | drainOutput hk => exact h.withLog (List.drop_subset _ _)
  | truncateOutput hk => exact h.withLog (List.take_subset _ _)
  | pipeInto hother => exact h.pipeInto hother
  | importState => exact h.restore (hsnap _ rfl)

end Changes

/-- When `addInstance` answers: the identity is new, and `construct` accepts (R223, R226). -/
theorem State.addInstance_eq_some_iff (s u : State) (target : InstanceId) (program inputs : List Int) :
    s.addInstance target program inputs = some u ↔
      s.knows target = false ∧ ∃ m, construct s.cfg program inputs = some m ∧
        u = { s with peers := putKey s.peers target m } := by
  unfold State.addInstance
  split
  · simp_all
  · next hnew => simp [hnew, eq_comm (b := u)]

/-- Settles O43: an action is refused, gives the turn to the instance called and makes the change of the
call, or adds a new instance. -/
theorem hostActionsKeepGood : Obligations.HostActionsKeepGood := by
  intro s a h hsnap
  cases a with
  | call target c =>
    rw [act]
    split
    · exact h
    · next u hu =>
      refine CallEffect.keepsGood (h.focus hu) (callHere_effect u c) fun snap hc => ?_
      rw [((turnChangesNoInstance s target).2 u hu).2.1]
      exact hsnap target snap (hc ▸ rfl)
  | construct target program inputs =>
    rw [act]
    split
    · exact h
    · next u hu =>
      obtain ⟨hnew, m, hm, rfl⟩ := (State.addInstance_eq_some_iff s u target program inputs).1 hu
      obtain ⟨-, hrecord⟩ := (construct_eq_some_iff _ _ _ _).1 hm
      exact h.addPeer (construct_good hm) (by rw [hrecord]; rfl) hnew

end Sys2Proof.Machine

/-! ### The fault register -/

namespace Sys2Proof.Machine

theorem callStep_of_faulted {s : State} {r : FaultRecord} (h : s.fault = some r) :
    callStep s = (s, .status (.fault r)) := by
  have hstep : step s = .next s := by simp only [step, h]
  simp only [callStep_of_next hstep, stepStatus, h]

/-- Settles O12: a step stands still, and of the other calls only import writes the fault register. -/
theorem faultIsSticky : Obligations.FaultIsSticky := by
  refine ⟨fun s r hr => ?_, fun s e => rfl⟩
  have hstay := callStep_of_faulted hr
  refine ⟨hstay, stepTimes_of_fixed (by rw [hstay]), fun c hc => ?_⟩
  have hx := callHere_effect s c
  generalize (callHere s c).1 = t at hx ⊢
  cases hx with
  | step hstep =>
    rw [callStep_of_next hstep] at hstay
    rwa [(Prod.mk.inj hstay).1]
  | importState => exact absurd rfl (hc _)
  | _ => exact hr

/-- Settles O13: `callStep_of_halted`, and what a good record says of `halted`. -/
theorem haltedStepDoesNothing : Obligations.HaltedStepDoesNothing := by
  intro s hf hh
  have hstay := callStep_of_halted hf hh
  have hpeek : peek s = .halted := by simp only [peek, hf, hh, if_true]
  exact ⟨hstay, by rw [callHere, hpeek], stepTimes_of_fixed (by rw [hstay]),
    fun h => (h.own_good.halted_clean hh).2⟩

/-- Settles O14: of all that a step of an instance without a record can do, only taking a fault sets
one. -/
theorem faultsArePrecise : Obligations.FaultsArePrecise := by
  intro s t r hf hstep hr
  rcases step_effect hstep with ⟨hfault, -⟩ | ⟨-, -, rfl⟩ | ⟨-, hh, e, rfl⟩ | ⟨-, -, i, -, hx⟩
  · exact absurd hf hfault
  · simp [hf] at hr
  · obtain rfl : faultRecord s e = r := by simpa using hr
    exact ⟨rfl, rfl, rfl, stepStatus_takeFault hf hh e⟩
  · simp [hx.fault_eq, hf] at hr

/-- Settles O16: the record is that of a trap in the table of R200, and each row says what `info` holds. -/
theorem faultInfoByCause : Obligations.FaultInfoByCause := by
  intro s t r hf hstep hr
  obtain ⟨e, he, rfl⟩ := step_sets_record hf hstep hr
  cases he with
  | negativeWord hw hneg => simp [faultRecord, hw, hneg]
  | unknownOpcode hw hpos => simpa [faultRecord] using ⟨_, hw, hpos, rfl⟩
  | negativeAddress ha => simpa [faultRecord] using ha
  | invalidOutputMode => simp [faultRecord]
  | invalidMode => simp [faultRecord]
  | wordOverflow hv => simpa [faultRecord] using hv
  | addressLimit ha hl => simpa [faultRecord] using ⟨ha, hl⟩

end Sys2Proof.Machine

/-! ### Peek -/

namespace Sys2Proof.Machine

/-- A trap of phase 1 that peek foretells: the fetch faults, or no opcode is selected. -/
def IsFetchCause (c : Cause) : Prop := c = .negativeAddress ∨ c = .addressLimit ∨ c = .invalidOpcode

/-- What peek reads of a running machine: INVALID where phase 1 faults before a kind is known, and else
the kind by which the fetched word decodes (60_exceptions R215). -/
theorem peek_running {s : State} (hs : Running s) :
    (peek s = .invalid ∧ ∃ e, fetchDecode s = .error e ∧ IsFetchCause e.cause) ∨
    ∃ (n : Nat) (k : Kind), peek s = .kind k ∧ fetchDecode s = decodeKind s.cfg n k := by
  obtain ⟨hf, hh⟩ := hs
  cases hread : memRead s s.ip with
  | error e =>
    refine .inl ⟨by simp [peek, hf, hh, fetchedWord_of_error hread], e, by simp [fetchDecode, hread], ?_⟩
    rcases (checkAddress_error_iff _ _ _).1 ((memRead_error_iff _ _ _).1 hread) with
      ⟨-, rfl⟩ | ⟨-, -, rfl⟩
    · exact .inl rfl
    · exact .inr (.inl rfl)
  | ok w =>
    have hword := fetchedWord_of_read hread
    rcases lt_or_ge w 0 with hneg | hpos
    · have hdec := (fetchDecode_error_iff s _).2 (.inr ⟨w, hread, decode_negative _ hneg⟩)
      exact .inl ⟨by simp [peek, hf, hh, hword, hneg], _, hdec, .inr (.inr rfl)⟩
    · obtain ⟨n, rfl⟩ := Int.eq_ofNat_of_zero_le hpos
      cases hk : kindOf (n % 100) with
      | none =>
        have hdec := (fetchDecode_error_iff s _).2 (.inr ⟨n, hread, decode_illegal_opcode _ hk⟩)
        exact .inl ⟨by simp [peek, hf, hh, hword, hk], _, hdec, .inr (.inr rfl)⟩
      | some k =>
        refine .inr ⟨n, k, by simp [peek, hf, hh, hword, hk], ?_⟩
        simp [fetchDecode, hread, decode_of_kind _ hk]

/-- What a step does once the opcode has selected the kind `k`: it executes or suspends, or faults with a
cause of a later check. -/
theorem stepStatus_of_kind {s t : State} {n : Nat} {k : Kind} (hs : Running s) (h : step s = .next t)
    (hd : fetchDecode s = decodeKind s.cfg n k) :
    stepStatus s t = .executed k ∨ (k = .inp ∧ stepStatus s t = .suspended) ∨
      ∃ r, stepStatus s t = .fault r ∧ r.cause ≠ .invalidOpcode := by
  obtain ⟨hf, hh⟩ := hs
  rw [step_running hf hh] at h
  cases hi : decodeKind s.cfg n k with
  | error e =>
    rw [hd, hi] at h
    cases h
    refine .inr (.inr ⟨_, stepStatus_takeFault hf hh e, ?_⟩)
    rcases decodeKind_error hi with rfl | rfl <;> simp [faultRecord]
  | ok i =>
    have hfd := hd.trans hi
    rw [hfd] at h
    obtain ⟨w, -, hdec⟩ := (fetchDecode_ok_iff s i).1 hfd
    have hkind : i.kind = k := by rw [(decodeKind_ok hi).2.2.2, instrOf_kind]
    rcases exec_next h with hx | ⟨e, rfl⟩
    · rw [hx.stepStatus_eq hf hh, hkind]
      split_ifs with hsuspends
      · exact .inr (.inl ⟨hsuspends.1, rfl⟩)
      · exact .inl rfl
    · refine .inr (.inr ⟨_, stepStatus_takeFault hf hh e, ?_⟩)
      have hwf := (decodedWordIsEncoding _ _ _ hdec).1
      rcases (executionFaultCauses i s _ _ hwf hf h rfl).2 with hc | hc | hc <;> simp [hc]

/-- Settles O49: a faulted and a halted instance by themselves, a running one by what peek reads of its
word. -/
theorem peekForetellsStep : Obligations.PeekForetellsStep := by
  intro s t hstep
  cases hf : s.fault with
  | some r =>
    have hpeek : peek s = .faulted := by simp only [peek, hf]
    have hstatus : stepStatus s t = .fault r := by simp only [stepStatus, hf]
    simp [hpeek, hstatus]
  | none =>
    cases hh : s.halted with
    | true =>
      have hpeek : peek s = .halted := by simp only [peek, hf, hh, if_true]
      simp [hpeek, stepStatus_of_halted hf hh]
    | false =>
      rcases peek_running ⟨hf, hh⟩ with ⟨hpeek, e, he, hcause⟩ | ⟨n, k, hpeek, hd⟩
      · rw [step_running hf hh, he] at hstep
        cases hstep
        simpa [hpeek, stepStatus_takeFault hf hh, IsFetchCause, faultRecord] using hcause
      · have hstatus := stepStatus_of_kind ⟨hf, hh⟩ hstep hd
        refine ⟨by simp [hpeek], ?_, by simp [hpeek], fun k' hk' => ?_⟩
        · rcases hstatus with h | ⟨-, h⟩ | ⟨r, h, -⟩ <;> simp [hpeek, h]
        · obtain rfl : k = k' := by simpa [hpeek] using hk'
          exact hstatus

end Sys2Proof.Machine

/-! ### The queue and the log -/

namespace Sys2Proof.Machine

/-- Settles O47: the one check that the call makes. -/
theorem appendInputIsLegalInEveryState : Obligations.AppendInputIsLegalInEveryState := by
  intro s v
  refine ⟨fun hv => ?_, fun hv => ?_⟩
  · rw [callHere, callAppendInput, if_pos hv]
  · rw [callHere, callAppendInput, if_neg (by simp [hv])]

/-- Settles O48: the log is cut where `old` ends, from the front by its length, from the back by that of
`new`. -/
theorem drainOldestTruncateNewest : Obligations.DrainOldestTruncateNewest := by
  intro s old new hlog
  refine ⟨?_, ?_, fun k hk => ⟨?_, ?_⟩⟩
  · simp [callHere, callDrainOutput, hlog]
  · simp [callHere, callTruncateOutput, hlog]
  · rw [callHere, callDrainOutput, if_neg (by omega)]
  · rw [callHere, callTruncateOutput, if_neg (by omega)]

end Sys2Proof.Machine

/-! ### Snapshots -/

namespace Sys2Proof.Machine

/-- Settles O51: neither call looks at the state, and the snapshot of a restored record is the one
imported. -/
theorem importReplacesAllButPipe : Obligations.ImportReplacesAllButPipe :=
  fun _ _ => ⟨rfl, rfl, rfl⟩

/-- A relation that every step keeps is kept by any number of them. -/
theorem StepRelation.stepTimes {R : State → State → Prop} (hR : StepRelation R) {s u : State}
    (h : R s u) (n : Nat) : R (stepTimes n s) (stepTimes n u) := by
  induction n generalizing s u with
  | zero => exact h
  | succ n ih =>
    obtain ⟨t, t', hs, hu, ht⟩ := step_bothNext hR h
    rw [Machine.stepTimes, Machine.stepTimes, callStep_of_next hs, callStep_of_next hu]
    exact ih ht

/-- `u` is `s` at another place in a group: identity, peers and pipe may differ, but both pipe into
themselves or neither does. -/
def DiffersInGroup (s u : State) : Prop :=
  ∃ pipe self peers, (pipe = some self ↔ s.pipe = some s.self) ∧
    u = { s with pipe := pipe, self := self, peers := peers }

/-- What Output does to the own record (41_io R121, R124). -/
theorem State.output_eq (s : State) (v : Int) :
    (s.logOutput v).forward v =
      { s with
        inq := if s.pipe = some s.self then s.inq ++ [v] else s.inq
        outlog := s.outlog ++ [v]
        peers := ((s.logOutput v).forward v).peers } := by
  rw [State.forward_eq, State.output_inq]
  rfl

theorem differsInGroup_stepRelation : StepRelation DiffersInGroup where
  reads := by rintro s _ ⟨p, i, ps, hp, rfl⟩; exact ⟨rfl, rfl, rfl, rfl, rfl, rfl, rfl⟩
  storeCell := by rintro s _ ⟨p, i, ps, hp, rfl⟩ d v; exact ⟨p, i, ps, hp, rfl⟩
  retire := by rintro s _ ⟨p, i, ps, hp, rfl⟩ k ip'; exact ⟨p, i, ps, hp, rfl⟩
  setBase := by rintro s _ ⟨p, i, ps, hp, rfl⟩ v; exact ⟨p, i, ps, hp, rfl⟩
  dropInput := by rintro s _ ⟨p, i, ps, hp, rfl⟩; exact ⟨p, i, ps, hp, rfl⟩
  output := by
    rintro s _ ⟨p, i, ps, hp, rfl⟩ v
    refine ⟨p, i, ((State.logOutput { s with pipe := p, self := i, peers := ps } v).forward v).peers,
      by simpa using hp, ?_⟩
    rw [State.output_eq, State.output_eq s]
    simp only [hp]
  suspend := by rintro s _ ⟨p, i, ps, hp, rfl⟩; exact ⟨p, i, ps, hp, rfl⟩
  halt := by rintro s _ ⟨p, i, ps, hp, rfl⟩; exact ⟨p, i, ps, hp, rfl⟩
  setFault := by rintro s _ ⟨p, i, ps, hp, rfl⟩ r; exact ⟨p, i, ps, hp, rfl⟩

/-- Settles O50: the restored instance differs from the original in its place in a group alone, and steps
keep it so. -/
theorem snapshotRoundTrip : Obligations.SnapshotRoundTrip := by
  intro n s u hcfg hpipe
  have hstart : DiffersInGroup s (u.restore s.toInstance.snapshot) :=
    ⟨u.pipe, u.self, u.peers, hpipe, by rw [← hcfg]; rfl⟩
  obtain ⟨p, i, ps, -, hend⟩ := differsInGroup_stepRelation.stepTimes hstart n
  rw [hend]
  rfl

end Sys2Proof.Machine

/-! ### New instances and pipes -/

namespace Sys2Proof.Machine

/-- Settles O52: the new record is put under an identity that is neither the own one nor a peer's. -/
theorem constructAddsInstance : Obligations.ConstructAddsInstance := by
  intro s target program inputs
  refine ⟨fun m hnew hm => ?_, fun hrefused => ?_⟩
  · have hadd := (State.addInstance_eq_some_iff s _ target program inputs).2 ⟨hnew, m, hm, rfl⟩
    have hother := State.ne_self_of_unknown hnew
    refine ⟨{ s with peers := putKey s.peers target m }, by rw [act, hadd], rfl, rfl, ?_,
      fun id hid => ?_⟩
    · simp [State.instanceAt, findKey_putKey, hother]
    · simp [State.instanceAt, findKey_putKey, hid]
  · have hadd : s.addInstance target program inputs = none := by
      rcases hrefused with h | h <;> simp [State.addInstance, h]
    rw [act, hadd]

/-- The end of an instruction is written to the own record alone. -/
theorem State.retire_instanceAt_other {s : State} {id : InstanceId} (h : id ≠ s.self) (k : Kind)
    (ip' : Int) : (s.retire k ip').instanceAt id = s.instanceAt id := by
  rw [State.instanceAt_other h, State.instanceAt_other (s := s.retire k ip') h, State.retire_peers]

/-- Settles O53: after the call the instance pipes into `other`, and an Output delivers its operand there
in the same step. -/
theorem pipeIntoRedirectsLaterOutputs : Obligations.PipeIntoRedirectsLaterOutputs := by
  intro s other
  refine ⟨fun hknown => ?_, fun hunknown => ?_, (State.knows_iff s _).2 (.inl rfl)⟩
  · have hcall : callHere s (.pipeInto other) = ({ s with pipe := some other }, .done) := by
      rw [callHere, callPipeInto, if_pos hknown]
    refine ⟨hcall, fun m1 a m hother hm ha hip => ?_⟩
    rw [hcall]
    have htarget : State.instanceAt { s with pipe := some other } other = some m := by
      simpa only [State.instanceAt, hother, if_false] using hm
    have hout := PipedTo.output (s := { s with pipe := some other }) rfl hother a
    refine ⟨_, (Effect.out (s := { s with pipe := some other }) ha hip).exec_eq, ?_⟩
    rw [State.retire_instanceAt_other (by simpa using hother), hout.target_eq, htarget, Option.map_some]
  · rw [callHere, callPipeInto, if_neg (by simp [hunknown])]

end Sys2Proof.Machine

/-! ### Steps of two instances -/

namespace Sys2Proof.Machine

/-- The turn can be given to any instance of the group, with its record in front. -/
theorem State.exists_focus {s : State} {a : InstanceId} {m : Instance}
    (h : s.instanceAt a = some m) :
    ∃ u, s.focus a = some u ∧ u.toInstance = m ∧ u.self = a ∧ u.cfg = s.cfg ∧
      ∀ id, u.instanceAt id = s.instanceAt id := by
  obtain ⟨hnone, hsome⟩ := turnChangesNoInstance s a
  obtain ⟨u, hu⟩ := Option.ne_none_iff_exists'.1 fun hn => by simp [hnone.1 hn] at h
  obtain ⟨hself, hcfg, hrecords⟩ := hsome u hu
  refine ⟨u, hu, ?_, hself, hcfg, hrecords⟩
  rwa [← hrecords, ← hself, State.instanceAt_self, Option.some.injEq] at h

theorem Effect.cfg_eq {i : Instr} {s t : State} (hx : Effect i s t) : t.cfg = s.cfg := by
  cases hx <;> simp

/-- No step changes the parameters (10_state R35). -/
theorem step_cfg {s t : State} (h : step s = .next t) : t.cfg = s.cfg := by
  rcases step_effect h with ⟨-, rfl⟩ | ⟨-, -, rfl⟩ | ⟨-, -, e, rfl⟩ | ⟨-, -, i, -, hx⟩
  · rfl
  · rfl
  · rfl
  · exact hx.cfg_eq

/-- `u` is `s` with other peers, but for the one of identity `id`. -/
def DiffersInPeers (id : InstanceId) (s u : State) : Prop :=
  ∃ peers, (id ≠ s.self → findKey peers id = findKey s.peers id) ∧ u = { s with peers := peers }

theorem DiffersInPeers.instanceAt_eq {id : InstanceId} {s u : State} (h : DiffersInPeers id s u) :
    u.instanceAt id = s.instanceAt id := by
  obtain ⟨ps, hps, rfl⟩ := h
  unfold State.instanceAt
  split_ifs with hid
  · rfl
  · exact hps hid

theorem differsInPeers_stepRelation (id : InstanceId) : StepRelation (DiffersInPeers id) where
  reads := by rintro s _ ⟨ps, hps, rfl⟩; exact ⟨rfl, rfl, rfl, rfl, rfl, rfl, rfl⟩
  storeCell := by rintro s _ ⟨ps, hps, rfl⟩ d v; exact ⟨ps, hps, rfl⟩
  retire := by rintro s _ ⟨ps, hps, rfl⟩ k ip'; exact ⟨ps, hps, rfl⟩
  setBase := by rintro s _ ⟨ps, hps, rfl⟩ v; exact ⟨ps, hps, rfl⟩
  dropInput := by rintro s _ ⟨ps, hps, rfl⟩; exact ⟨ps, hps, rfl⟩
  output := by
    rintro s _ ⟨ps, hps, rfl⟩ v
    refine ⟨((State.logOutput { s with peers := ps } v).forward v).peers, fun hid => ?_, ?_⟩
    · rw [State.output_findKey, State.output_findKey]
      exact congrArg _ (hps (by simpa using hid))
    · rw [State.output_eq, State.output_eq s]
  suspend := by rintro s _ ⟨ps, hps, rfl⟩; exact ⟨ps, hps, rfl⟩
  halt := by rintro s _ ⟨ps, hps, rfl⟩; exact ⟨ps, hps, rfl⟩
  setFault := by rintro s _ ⟨ps, hps, rfl⟩ r; exact ⟨ps, hps, rfl⟩

/-- The group after a step of instance `a`. -/
def State.stepOf (s : State) (a : InstanceId) : State := (act s (.call a .step)).1

section StepOf
variable {s : State} {a : InstanceId} {m : Instance} (hm : s.instanceAt a = some m)
include hm

/-- A step of `a` is a step taken with the turn given to `a`. -/
theorem State.exists_stepOf :
    ∃ u, u.toInstance = m ∧ u.self = a ∧ u.cfg = s.cfg ∧ (∀ id, u.instanceAt id = s.instanceAt id) ∧
      step u = .next (s.stepOf a) := by
  obtain ⟨u, hu, hrecord, hself, hcfg, hrecords⟩ := State.exists_focus hm
  obtain ⟨t, hstep⟩ := everyStepAnswersNext.2 u
  refine ⟨u, hrecord, hself, hcfg, hrecords, ?_⟩
  simp only [State.stepOf, act, hu, callHere, callStep_of_next hstep, hstep]

theorem State.stepOf_cfg : (s.stepOf a).cfg = s.cfg := by
  obtain ⟨u, -, -, hcfg, -, hstep⟩ := State.exists_stepOf hm
  rw [step_cfg hstep, hcfg]

/-- A step reaches no instance but the own one and the pipe target (60_exceptions R227). -/
theorem State.stepOf_other {id : InstanceId} (hid : id ≠ a) (hp : m.pipe ≠ some id) :
    (s.stepOf a).instanceAt id = s.instanceAt id := by
  obtain ⟨u, rfl, rfl, -, hrecords, hstep⟩ := State.exists_stepOf hm
  rcases (stepTouchesOnlyPipeTarget u _ id hstep hid).2 with h | ⟨htarget, -⟩
  · rw [h, hrecords]
  · exact absurd htarget hp

/-- What a step of `a` makes of a record depends on that record, that of `a` and the parameters. -/
theorem State.stepOf_congr {s' : State} {id : InstanceId} (hm' : s'.instanceAt a = some m)
    (hcfg : s'.cfg = s.cfg) (hid : s'.instanceAt id = s.instanceAt id) :
    (s'.stepOf a).instanceAt id = (s.stepOf a).instanceAt id := by
  obtain ⟨u, hu, hself, hucfg, hrecords, hstep⟩ := State.exists_stepOf hm
  obtain ⟨u', hu', hself', hucfg', hrecords', hstep'⟩ := State.exists_stepOf hm'
  have hsame : DiffersInPeers id u u' := by
    refine ⟨u'.peers, fun hne => ?_, ?_⟩
    · rw [← State.instanceAt_other hne, ← State.instanceAt_other (s := u') (by rwa [hself', ← hself]),
        hrecords, hrecords', hid]
    · change State.mk u'.toInstance u'.self u'.peers u'.cfg = ⟨u.toInstance, u.self, u'.peers, u.cfg⟩
      rw [hu', hu, hself', hself, hucfg', hucfg, hcfg]
  obtain ⟨t, t', ht, ht', hrel⟩ := step_bothNext (differsInPeers_stepRelation id) hsame
  rw [hstep] at ht
  rw [hstep'] at ht'
  cases ht
  cases ht'
  exact hrel.instanceAt_eq

end StepOf

/-- Two steps commute at an instance that one of them does not reach, if neither reaches the other's. -/
theorem State.stepOf_comm_of_unreached {s : State} {a b id : InstanceId} {ma mb : Instance}
    (hab : a ≠ b) (ha : s.instanceAt a = some ma) (hb : s.instanceAt b = some mb)
    (hpa : ma.pipe ≠ some b) (hpb : mb.pipe ≠ some a) (hid : id ≠ a) (hp : ma.pipe ≠ some id) :
    ((s.stepOf a).stepOf b).instanceAt id = ((s.stepOf b).stepOf a).instanceAt id := by
  have hb' : (s.stepOf a).instanceAt b = some mb := (State.stepOf_other ha hab.symm hpa).trans hb
  have ha' : (s.stepOf b).instanceAt a = some ma := (State.stepOf_other hb hab hpb).trans ha
  calc ((s.stepOf a).stepOf b).instanceAt id
      = (s.stepOf b).instanceAt id :=
        State.stepOf_congr hb hb' (State.stepOf_cfg ha) (State.stepOf_other ha hid hp)
    _ = ((s.stepOf b).stepOf a).instanceAt id := (State.stepOf_other ha' hid hp).symm

/-- Settles O55: an instance that both steps reached would be one of the two, into which the other pipes,
or a target that they share. -/
theorem independentStepsCommute : Obligations.IndependentStepsCommute := by
  intro s a b ma mb hab ha hb hpa hpb hshare id
  change ((s.stepOf a).stepOf b).instanceAt id = ((s.stepOf b).stepOf a).instanceAt id
  by_cases hreach : id ≠ a ∧ ma.pipe ≠ some id
  · exact State.stepOf_comm_of_unreached hab ha hb hpa hpb hreach.1 hreach.2
  · have hunreached : id ≠ b ∧ mb.pipe ≠ some id := by
      rcases not_and_or.1 hreach with h | h
      · obtain rfl := not_not.1 h
        exact ⟨hab, hpb⟩
      · have htarget := not_not.1 h
        refine ⟨?_, fun hb => ?_⟩
        · rintro rfl
          exact hpa htarget
        · rcases hshare with hnone | hne
          · simp [hnone] at htarget
          · exact hne (htarget.trans hb.symm)
    exact (State.stepOf_comm_of_unreached hab.symm hb ha hpb hpa hunreached.1 hunreached.2).symm

end Sys2Proof.Machine

/-! PROOFS. Reset and hazards (70_reset): the state that `construct` makes, the program text, the outcome
states of an instance, and the end of a run. -/

/-! ### Construct -/

namespace Sys2Proof.Machine

/-- An image placed at `a` holds the program's words one after the other, and 0 beyond the last. -/
theorem Memory.read_imageFrom (program : List Int) (a j : Nat) :
    (Memory.imageFrom a program).read (a + j) = program.getD j 0 := by
  induction program generalizing a j with
  | nil => rfl
  | cons w program ih =>
    have hbelow : findKey (Memory.imageFrom (a + 1) program) a = none :=
      findKey_below (Nat.lt_succ_self a) (Memory.keysRise_imageFrom program (a + 1))
    cases j with
    | zero =>
      unfold Memory.imageFrom
      split
      · next hw => simp [Memory.read, hbelow, hw]
      · simp [Memory.read, findKey_cons]
    | succ j =>
      have htail : (Memory.imageFrom a (w :: program)).read (a + (j + 1)) =
          (Memory.imageFrom (a + 1) program).read (a + (j + 1)) := by
        rw [Memory.imageFrom]
        split
        · rfl
        · simp [Memory.read, findKey_cons]
      rw [htail, List.getD_cons_succ, ← ih (a + 1) j, Nat.add_assoc, Nat.add_comm 1 j]

/-- Cell `a` of a program image (70_reset R250). -/
theorem Memory.read_image (program : List Int) (a : Nat) :
    (Memory.image program).read a = program.getD a 0 := by
  simpa [Memory.image] using Memory.read_imageFrom program 0 a

/-- When a program is too long (70_reset R250). -/
theorem lengthAdmitted_eq_false_iff (c : Config) (program : List Int) :
    lengthAdmitted c program = false ↔ ∃ limit, c.memLimit = some limit ∧ limit < program.length := by
  cases h : c.memLimit <;> simp [lengthAdmitted, h]

/-- When a program is refused: one of the three checks of `construct` fails (70_reset R250). -/
theorem construct_eq_none_iff (c : Config) (program inputs : List Int) :
    construct c program inputs = none ↔
      program.all (fits c) = false ∨ inputs.all (fits c) = false ∨
        lengthAdmitted c program = false := by
  rw [construct, ite_eq_right_iff]
  simp only [reduceCtorEq, imp_false, Bool.and_eq_true, not_and_or, Bool.not_eq_true, or_assoc]

/-- Settles O45: which of the checks of `construct` fails, and the record that it makes where none
does. -/
theorem constructMeetsReset : Obligations.ConstructMeetsReset := by
  intro c program inputs
  refine ⟨?_, fun m hm => ?_⟩
  · rw [construct_eq_none_iff, lengthAdmitted_eq_false_iff]
    simp only [List.all_eq_false, Bool.not_eq_true]
  · obtain ⟨-, rfl⟩ := (construct_eq_some_iff c program inputs m).1 hm
    exact ⟨Memory.read_image program, rfl, rfl, rfl, rfl, rfl, rfl, rfl, rfl⟩

/-- The empty program is taken under all parameters, and gives the instance after reset (70_reset
R257). -/
theorem construct_empty (c : Config) : construct c [] [] = some Instance.reset := by
  refine (construct_eq_some_iff c [] [] _).2 ⟨⟨rfl, rfl, ?_⟩, rfl⟩
  cases h : c.memLimit <;> simp [lengthAdmitted, h]

/-- Settles O41: the instance after reset is one that `construct` makes, and it is alone. -/
theorem resetIsGood : Obligations.ResetIsGood := by
  have hpeers : State.reset.peers = [] := rfl
  exact
    { parameters_valid := rfl
      own_good := construct_good (construct_empty Config.standard)
      peers_good := by simp [hpeers]
      peers_sorted := rfl
      self_apart := rfl
      own_pipe_known := nofun
      peer_pipes_known := by simp [hpeers] }

/-- The cell at address 0 is below every permitted MEM_LIMIT (00_scope R6). -/
theorem admits_zero {c : Config} (hc : configValid c = true) : admits c 0 = true := by
  cases h : c.memLimit with
  | none => exact admits_of_unbounded h 0
  | some limit =>
    simp only [configValid, h, Bool.and_eq_true, decide_eq_true_eq] at hc
    simp only [admits, h, decide_eq_true_eq]
    omega

/-- Settles O46: the first step fetches the word 0, whose opcode value 0 selects no kind. -/
theorem emptyProgramFaults : Obligations.EmptyProgramFaults := by
  intro c hc
  have hword : memRead { State.reset with cfg := c } 0 = .ok 0 :=
    memRead_ip (s := { State.reset with cfg := c }) (n := 0) rfl (admits_zero hc) rfl
  exact ⟨construct_empty c,
    (illegalOpcodesFault _ 0 ⟨rfl, rfl⟩ hword).2 le_rfl (.inl rfl)⟩

end Sys2Proof.Machine

/-! ### Outcome states -/

namespace Sys2Proof.Machine

theorem runState_of_faulted {s : State} (hf : s.fault ≠ none) : runState s = .faulted := by
  rw [runState, if_pos (Option.isSome_iff_ne_none.2 hf)]

theorem runState_of_halted {s : State} (hf : s.fault = none) (hh : s.halted = true) :
    runState s = .halted := by simp [runState, hf, hh]

theorem runState_running {s : State} (hs : Running s) :
    runState s = if waitsForInput s = true then .waiting else .runnable := by
  simp [runState, hs.1, hs.2]

/-- A running instance waits exactly if its step suspends: the only effect that suspends is that of an
Input with an empty queue whose output address resolves (41_io R122). -/
theorem waitsForInput_iff_suspended {s t : State} (hs : Running s) (h : step s = .next t) :
    waitsForInput s = true ↔ stepStatus s t = .suspended := by
  obtain ⟨hf, hh⟩ := hs
  rw [waitsForInput_iff]
  constructor
  · rintro ⟨hq, m1, d, hd, hout⟩
    have hx := Effect.suspends hout hq
    obtain rfl : s.suspend = t := by simpa [hx.step_eq ⟨hf, hh⟩ hd] using h
    simpa [Instr.kind, hq] using hx.stepStatus_eq hf hh
  · intro hstatus
    rcases step_effect h with ⟨hfault, -⟩ | ⟨-, hhalted, -⟩ | ⟨-, -, e, rfl⟩ | ⟨-, -, i, hd, hx⟩
    · exact absurd hf hfault
    · simp [hh] at hhalted
    · simp [stepStatus_takeFault hf hh] at hstatus
    · rw [hx.stepStatus_eq hf hh] at hstatus
      cases hx with
      | suspends hout hq => exact ⟨hq, _, _, hd, hout⟩
      | inp hout hq hip => simp [hq] at hstatus
      | _ => simp [Instr.kind] at hstatus

/-- The status of a running instance's step is not that of a halted one. -/
theorem stepStatus_ne_halted {s : State} (hs : Running s) (t : State) : stepStatus s t ≠ .halted := by
  obtain ⟨hf, hh⟩ := hs
  simp only [stepStatus, hf, hh, Bool.false_eq_true, if_false]
  split
  · simp
  · split <;> simp

/-- Settles O56: a faulted and a halted instance by themselves, a running one by whether it waits. -/
theorem waitingExactlyWhenStepSuspends : Obligations.WaitingExactlyWhenStepSuspends := by
  intro s t hstep
  by_cases hf : s.fault = none
  · cases hh : s.halted with
    | true => simp [runState_of_halted hf hh, stepStatus_of_halted hf hh, Running, hf, hh]
    | false =>
      have hs : Running s := ⟨hf, hh⟩
      have hne := stepStatus_ne_halted hs t
      have hwaits := waitsForInput_iff_suspended hs hstep
      rw [runState_running hs]
      split_ifs with hwait
      · simp [hwaits.1 hwait, hf]
      · simpa [mt hwaits.2 hwait, hne, hf] using hs
  · obtain ⟨r, hr⟩ := stepStatus_of_faulted hf t
    simp [runState_of_faulted hf, hr, Running, hf]

end Sys2Proof.Machine

/-! ### What the end of a run means -/

namespace Sys2Proof.Machine

theorem isEndOutcome_iff (o : Option RunState) :
    isEndOutcome o = true ↔ o = some .halted ∨ o = some .faulted ∨ o = some .waiting := by
  cases o with
  | none => simp [isEndOutcome]
  | some r => cases r <;> simp [isEndOutcome]

section Ends
variable (s : State) (ids : List InstanceId)

theorem runEnded_iff : runEnded s ids = true ↔ ∀ id ∈ ids, isEndOutcome (s.outcomeOf id) = true := by
  rw [runEnded, List.all_eq_true]

theorem runSucceeded_iff :
    runSucceeded s ids = true ↔ ∀ id ∈ ids, s.outcomeOf id = some .halted := by
  simp only [runSucceeded, List.all_eq_true, beq_iff_eq]

theorem runFailed_iff : runFailed s ids = true ↔ ∃ id ∈ ids, s.outcomeOf id = some .faulted := by
  simp only [runFailed, List.any_eq_true, beq_iff_eq]

theorem runStuck_iff :
    runStuck s ids = true ↔
      runEnded s ids = true ∧ ∃ id ∈ ids, s.outcomeOf id = some .waiting := by
  simp only [runStuck, Bool.and_eq_true, List.any_eq_true, beq_iff_eq]

/-- An ended run in which no instance is faulted and none waits has all instances halted. -/
theorem runEnded_cases (h : runEnded s ids = true) :
    runSucceeded s ids = true ∨ runFailed s ids = true ∨ runStuck s ids = true := by
  by_contra hnone
  simp only [not_or, runSucceeded_iff, runFailed_iff, runStuck_iff, h, true_and] at hnone
  obtain ⟨hsucceeded, hfailed, hstuck⟩ := hnone
  refine hsucceeded fun id hid => ?_
  rcases (isEndOutcome_iff _).1 ((runEnded_iff s ids).1 h id hid) with hhalted | hfaulted | hwaiting
  · exact hhalted
  · exact absurd ⟨id, hid, hfaulted⟩ hfailed
  · exact absurd ⟨id, hid, hwaiting⟩ hstuck

/-- A run that succeeded has ended, and not in another way. -/
theorem runSucceeded_excludes (h : runSucceeded s ids = true) :
    runEnded s ids = true ∧ runFailed s ids = false ∧ runStuck s ids = false := by
  rw [runSucceeded_iff] at h
  refine ⟨(runEnded_iff s ids).2 fun id hid => (isEndOutcome_iff _).2 (.inl (h id hid)), ?_, ?_⟩
  · rw [← Bool.not_eq_true, runFailed_iff]
    rintro ⟨id, hid, hfaulted⟩
    simp [h id hid] at hfaulted
  · rw [← Bool.not_eq_true, runStuck_iff]
    rintro ⟨-, id, hid, hwaiting⟩
    simp [h id hid] at hwaiting

end Ends

end Sys2Proof.Machine

/-! ### An ended run stays as it ended -/

namespace Sys2Proof.Machine

/-- The record after a suspension (41_io R122). -/
def Instance.suspended (m : Instance) : Instance := { m with lastop := .suspended }

/-- The outcome state of a record under the parameters `c`: that of a group in which it is alone. -/
def Instance.outcome (c : Config) (m : Instance) : RunState :=
  runState { m with self := 0, peers := [], cfg := c }

@[simp] theorem Instance.outcome_suspended (c : Config) (m : Instance) :
    m.suspended.outcome c = m.outcome c :=
  runState_suspend { m with self := 0, peers := [], cfg := c }

/-- The outcome state of an instance is that of its record, whoever's turn it is (R261). -/
theorem State.outcomeOf_eq (s : State) (id : InstanceId) :
    s.outcomeOf id = (s.instanceAt id).map (Instance.outcome s.cfg) := by
  cases hm : s.instanceAt id with
  | none => rw [State.outcomeOf, (s.focus_eq_none_iff id).2 hm]; rfl
  | some m =>
    obtain ⟨u, hu, rfl, -, hcfg, -⟩ := State.exists_focus hm
    rw [State.outcomeOf, hu, Option.map_some, Option.map_some, ← hcfg]
    exact congrArg some (runState_congr rfl rfl rfl rfl rfl rfl rfl)

/-- From `s` to `t` the instances `ids` do no more than suspend, and no other changes. -/
structure OnlySuspends (ids : List InstanceId) (s t : State) : Prop where
  cfg_eq : t.cfg = s.cfg
  instanceAt_eq : ∀ id, t.instanceAt id = s.instanceAt id ∨
    (id ∈ ids ∧ t.instanceAt id = (s.instanceAt id).map Instance.suspended)

section OnlySuspends
variable {ids : List InstanceId} {s t u : State}

theorem OnlySuspends.refl (ids : List InstanceId) (s : State) : OnlySuspends ids s s :=
  ⟨rfl, fun _ => .inl rfl⟩

theorem OnlySuspends.trans (hst : OnlySuspends ids s t) (htu : OnlySuspends ids t u) :
    OnlySuspends ids s u := by
  refine ⟨htu.cfg_eq.trans hst.cfg_eq, fun id => ?_⟩
  rcases hst.instanceAt_eq id with hs | ⟨hid, hs⟩
  · rw [← hs]
    exact htu.instanceAt_eq id
  · refine .inr ⟨hid, ?_⟩
    rcases htu.instanceAt_eq id with ht | ⟨-, ht⟩
    · rw [ht, hs]
    · rw [ht, hs, Option.map_map]
      rfl

/-- A suspension writes `lastop`, which the outcome state does not read. -/
theorem OnlySuspends.outcomeOf_eq (h : OnlySuspends ids s t) (id : InstanceId) :
    t.outcomeOf id = s.outcomeOf id := by
  rw [State.outcomeOf_eq, State.outcomeOf_eq, h.cfg_eq]
  rcases h.instanceAt_eq id with hid | ⟨-, hid⟩
  · rw [hid]
  · have hsame : Instance.outcome s.cfg ∘ Instance.suspended = Instance.outcome s.cfg :=
      funext (Instance.outcome_suspended s.cfg)
    rw [hid, Option.map_map, hsame]

/-- A suspension writes neither the log nor the memory. -/
theorem OnlySuspends.runResults_eq (h : OnlySuspends ids s t) : runResults t ids = runResults s ids := by
  refine List.map_congr_left fun id _ => ?_
  rcases h.instanceAt_eq id with hid | ⟨-, hid⟩
  · rw [hid]
  · rw [hid, Option.map_map]
    rfl

theorem OnlySuspends.runEnded_eq (h : OnlySuspends ids s t) : runEnded t ids = runEnded s ids := by
  simp only [runEnded, h.outcomeOf_eq]

/-- The instance whose turn it is suspends. -/
theorem onlySuspends_suspend (hself : s.self ∈ ids) : OnlySuspends ids s s.suspend := by
  refine ⟨rfl, fun id => ?_⟩
  by_cases hid : id = s.self
  · subst hid
    exact .inr ⟨hself, by rw [State.instanceAt_self]; exact s.suspend.instanceAt_self⟩
  · rw [State.instanceAt_other hid, State.instanceAt_other (s := s.suspend) hid]
    exact .inl rfl

/-- A step of an instance whose part in a run has ended does nothing, or suspends (R262). -/
theorem onlySuspends_stepOf {id : InstanceId} (hid : id ∈ ids)
    (hend : isEndOutcome (s.outcomeOf id) = true) : OnlySuspends ids s (s.stepOf id) := by
  cases hu : s.focus id with
  | none => simp [State.outcomeOf, hu, isEndOutcome] at hend
  | some u =>
    obtain ⟨hself, hcfg, hrecords⟩ := (turnChangesNoInstance s id).2 u hu
    have hturn : OnlySuspends ids s u := ⟨hcfg, fun id => .inl (hrecords id)⟩
    have hrest : runState u ≠ .runnable := by
      intro hrun
      simp [State.outcomeOf, hu, hrun, isEndOutcome] at hend
    simp only [State.stepOf, act, hu, callHere]
    rcases step_of_not_runnable hrest with hstep | hstep
    · rwa [callStep_of_next hstep]
    · rw [callStep_of_next hstep]
      exact hturn.trans (onlySuspends_suspend (hself ▸ hid))

/-- So does every schedule of steps of the instances of an ended run. -/
theorem onlySuspends_stepAll (schedule : List InstanceId) (hend : runEnded s ids = true)
    (hschedule : ∀ id ∈ schedule, id ∈ ids) : OnlySuspends ids s (stepAll s schedule) := by
  induction schedule generalizing s with
  | nil => exact .refl ids s
  | cons id schedule ih =>
    obtain ⟨hid, hrest⟩ := List.forall_mem_cons.1 hschedule
    have hfirst := onlySuspends_stepOf hid ((runEnded_iff s ids).1 hend id hid)
    exact hfirst.trans (ih (hfirst.runEnded_eq.trans hend) hrest)

end OnlySuspends

/-- Settles O57: what the four tests of a run decide, and that the instances of an ended run only
suspend. -/
theorem endedRunStaysEnded : Obligations.EndedRunStaysEnded := by
  refine ⟨fun s ids => ⟨?_, runSucceeded_iff s ids, runFailed_iff s ids, runStuck_iff s ids,
    runEnded_cases s ids, runSucceeded_excludes s ids⟩, ?_⟩
  · simp only [runEnded_iff, isEndOutcome_iff]
  · rintro s _ ids schedule hend hschedule rfl
    have h := onlySuspends_stepAll schedule hend hschedule
    refine ⟨fun id _ => h.outcomeOf_eq id, h.runResults_eq, fun id m hm => ?_⟩
    rcases h.instanceAt_eq id with hid | ⟨hmem, hid⟩
    · exact ⟨m, hid.trans hm, .inl rfl⟩
    · exact ⟨m.suspended, by rw [hid, hm, Option.map_some], .inr ⟨hmem, rfl⟩⟩

end Sys2Proof.Machine

/-! ### Integers in program text -/

namespace Sys2Proof.Machine

/-- The characters an integer is written with. -/
def IsIntegerChar (c : Char) : Prop := c = '+' ∨ c = '-' ∨ (digitValue c).isSome = true

theorem IsIntegerChar.not_blank {c : Char} (h : IsIntegerChar c) : isBlank c = false := by
  rw [← Bool.not_eq_true]
  intro hblank
  simp only [isBlank, Bool.or_eq_true, beq_iff_eq] at hblank
  rcases hblank with ((rfl | rfl) | rfl) | rfl <;> simp [IsIntegerChar, digitValue] at h

theorem IsIntegerChar.ne_comma {c : Char} (h : IsIntegerChar c) : c ≠ ',' := by
  rintro rfl
  simp [IsIntegerChar, digitValue] at h

theorem isDigit_of_digitsFrom {acc n : Nat} {t : List Char} (h : digitsFrom acc t = some n) :
    ∀ c ∈ t, (digitValue c).isSome = true := by
  induction t generalizing acc with
  | nil => simp
  | cons c t ih =>
    rw [digitsFrom] at h
    split at h
    · simp at h
    · next d hd => exact List.forall_mem_cons.2 ⟨by simp [hd], ih h⟩

theorem IsIntegerText.chars {t : List Char} {v : Int} (h : IsIntegerText t v) :
    ∀ c ∈ t, IsIntegerChar c := by
  obtain ⟨sign, digits, n, rfl, -, hn, hsign⟩ := h
  refine List.forall_mem_append.2
    ⟨fun c hc => ?_, fun c hc => .inr (.inr (isDigit_of_digitsFrom hn c hc))⟩
  rcases hsign with ⟨rfl | rfl, -⟩ | ⟨rfl, -⟩
  · simp at hc
  · exact .inl (by simpa using hc)
  · exact .inr (.inl (by simpa using hc))

theorem naturalText_eq_some_iff (t : List Char) (n : Nat) :
    naturalText t = some n ↔ t ≠ [] ∧ digitsFrom 0 t = some n := by
  cases t <;> simp [naturalText]

/-- The three forms that a first character selects. -/
theorem integerText_cons_eq_some_iff (c : Char) (rest : List Char) (v : Int) :
    integerText (c :: rest) = some v ↔ ∃ n : Nat,
      (c = '+' ∧ naturalText rest = some n ∧ v = n) ∨
      (c = '-' ∧ naturalText rest = some n ∧ v = -n) ∨
      (c ≠ '+' ∧ c ≠ '-' ∧ naturalText (c :: rest) = some n ∧ v = n) := by
  rw [integerText]
  split_ifs with hplus hminus <;>
    simp [*, Option.bind_eq_some_iff, eq_comm (a := v)]

/-- The reader of integers meets the grammar: no sign is a digit, so the first character tells which form
a text has. -/
theorem integerText_eq_some_iff (t : List Char) (v : Int) :
    integerText t = some v ↔ IsIntegerText t v := by
  constructor
  · intro h
    cases t with
    | nil => simp [integerText] at h
    | cons c rest =>
      obtain ⟨n, ⟨rfl, hn, rfl⟩ | ⟨rfl, hn, rfl⟩ | ⟨-, -, hn, rfl⟩⟩ :=
        (integerText_cons_eq_some_iff c rest v).1 h
      all_goals obtain ⟨hne, hn⟩ := (naturalText_eq_some_iff _ n).1 hn
      · exact ⟨['+'], rest, n, rfl, hne, hn, .inl ⟨.inr rfl, rfl⟩⟩
      · exact ⟨['-'], rest, n, rfl, hne, hn, .inr ⟨rfl, rfl⟩⟩
      · exact ⟨[], c :: rest, n, rfl, hne, hn, .inl ⟨.inl rfl, rfl⟩⟩
  · rintro ⟨sign, digits, n, rfl, hne, hn, hsign⟩
    have hnat := (naturalText_eq_some_iff digits n).2 ⟨hne, hn⟩
    rcases hsign with ⟨rfl | rfl, rfl⟩ | ⟨rfl, rfl⟩
    · obtain ⟨c, rest, rfl⟩ := List.exists_cons_of_ne_nil hne
      have hdigit := isDigit_of_digitsFrom hn c List.mem_cons_self
      refine (integerText_cons_eq_some_iff c rest n).2 ⟨n, .inr (.inr ⟨?_, ?_, hnat, rfl⟩)⟩
      all_goals
        rintro rfl
        simp [digitValue] at hdigit
    · exact (integerText_cons_eq_some_iff '+' digits n).2 ⟨n, .inl ⟨rfl, hnat, rfl⟩⟩
    · exact (integerText_cons_eq_some_iff '-' digits _).2 ⟨n, .inr (.inl ⟨rfl, hnat, rfl⟩)⟩

end Sys2Proof.Machine

/-! ### Fields -/

namespace Sys2Proof.Machine

/-- What trimming removes is blank. -/
theorem exists_blanks_trimBlanks (t : List Char) :
    ∃ before after, t = before ++ trimBlanks t ++ after ∧ before.all isBlank = true ∧
      after.all isBlank = true := by
  refine ⟨t.takeWhile isBlank, (t.dropWhile isBlank).rtakeWhile isBlank, ?_, List.all_takeWhile,
    List.all_eq_true.2 fun c hc => List.mem_rtakeWhile_imp hc⟩
  change t = _ ++ (t.dropWhile isBlank).rdropWhile isBlank ++ _
  rw [List.append_assoc, List.rdropWhile_append_rtakeWhile, List.takeWhile_append_dropWhile]

/-- Blanks before a text that begins with none are dropped, and no more. -/
theorem dropWhile_blanks {before body : List Char} (hbefore : before.all isBlank = true)
    (hbody : ∀ c ∈ body.head?, isBlank c = false) :
    (before ++ body).dropWhile isBlank = body := by
  rw [List.dropWhile_append_of_pos (List.all_eq_true.1 hbefore)]
  cases body with
  | nil => rfl
  | cons c body => exact List.dropWhile_cons_of_neg (by simpa using hbody)

/-- A text between blanks, itself without any, is what is left after trimming. -/
theorem trimBlanks_between {before body after : List Char} (hbefore : before.all isBlank = true)
    (hafter : after.all isBlank = true) (hne : body ≠ [])
    (hbody : ∀ c ∈ body, isBlank c = false) : trimBlanks (before ++ body ++ after) = body := by
  have hfront : (before ++ (body ++ after)).dropWhile isBlank = body ++ after :=
    dropWhile_blanks hbefore fun c hc => hbody c (by
      rw [List.head?_append_of_ne_nil _ hne] at hc
      exact List.mem_of_mem_head? hc)
  have hback : (after.reverse ++ body.reverse).dropWhile isBlank = body.reverse :=
    dropWhile_blanks (by simpa using hafter) fun c hc =>
      hbody c (List.mem_reverse.1 (List.mem_of_mem_head? hc))
  rw [trimBlanks, List.append_assoc, hfront, List.reverse_append, hback, List.reverse_reverse]

/-- The reader of fields meets `ws* integer ws*`. -/
theorem integerText_trimBlanks_iff (t : List Char) (v : Int) :
    integerText (trimBlanks t) = some v ↔ IsFieldText t v := by
  constructor
  · intro h
    obtain ⟨before, after, ht, hbefore, hafter⟩ := exists_blanks_trimBlanks t
    exact ⟨before, _, after, ht, hbefore, hafter, (integerText_eq_some_iff _ v).1 h⟩
  · rintro ⟨before, body, after, rfl, hbefore, hafter, hbody⟩
    have hne : body ≠ [] := by
      obtain ⟨sign, digits, n, rfl, hdigits, -⟩ := hbody
      simp [hdigits]
    rw [trimBlanks_between hbefore hafter hne fun c hc => (hbody.chars c hc).not_blank]
    exact (integerText_eq_some_iff _ v).2 hbody

theorem IsFieldText.comma_not_mem {t : List Char} {v : Int} (h : IsFieldText t v) : ',' ∉ t := by
  obtain ⟨before, body, after, rfl, hbefore, hafter, hbody⟩ := h
  have hblank {l : List Char} (hl : l.all isBlank = true) : ',' ∉ l := fun hmem =>
    absurd (List.all_eq_true.1 hl _ hmem) (by decide)
  simp only [List.mem_append, not_or]
  exact ⟨⟨hblank hbefore, fun hmem => (hbody.chars _ hmem).ne_comma rfl⟩, hblank hafter⟩

end Sys2Proof.Machine

/-! ### Programs -/

namespace Sys2Proof.Machine

theorem splitCommas_of_no_comma {t : List Char} (h : ',' ∉ t) : splitCommas t = [t] := by
  induction t with
  | nil => rfl
  | cons c t ih =>
    obtain ⟨hc, ht⟩ := List.ne_and_not_mem_of_not_mem_cons h
    rw [splitCommas, if_neg (Ne.symm hc), ih ht]

/-- The text before the first comma is the first field. -/
theorem splitCommas_append_comma {t : List Char} (h : ',' ∉ t) (rest : List Char) :
    splitCommas (t ++ ',' :: rest) = t :: splitCommas rest := by
  induction t with
  | nil => rw [List.nil_append, splitCommas, if_pos rfl]
  | cons c t ih =>
    obtain ⟨hc, ht⟩ := List.ne_and_not_mem_of_not_mem_cons h
    rw [List.cons_append, splitCommas, if_neg (Ne.symm hc), ih ht]

theorem readFields_cons_eq_some_iff (f : List Char) (fs : List (List Char)) (program : List Int) :
    readFields (f :: fs) = some program ↔
      ∃ v vs, program = v :: vs ∧ IsFieldText f v ∧ readFields fs = some vs := by
  simp only [← integerText_trimBlanks_iff]
  rw [readFields]
  cases integerText (trimBlanks f) <;> cases readFields fs <;> simp [eq_comm]

/-- What the parser reads is in the grammar: a text without a comma is one field, and any other is the
field before its first comma and the program after it. -/
theorem isProgramText_of_parseProgram {text : List Char} {program : List Int}
    (h : parseProgram text = some program) : IsProgramText text program := by
  unfold parseProgram at h
  by_cases hcomma : ',' ∈ text
  · obtain ⟨field, rest, rfl, hfield⟩ := List.eq_append_cons_of_mem hcomma
    rw [splitCommas_append_comma hfield, readFields_cons_eq_some_iff] at h
    obtain ⟨v, vs, rfl, hv, hvs⟩ := h
    exact .more field rest v vs hv (isProgramText_of_parseProgram hvs)
  · rw [splitCommas_of_no_comma hcomma, readFields_cons_eq_some_iff] at h
    obtain ⟨v, vs, rfl, hv, hvs⟩ := h
    cases hvs
    exact .single text v hv
termination_by text.length

/-- The parser reads every program text of the grammar. -/
theorem IsProgramText.parseProgram_eq {text : List Char} {program : List Int}
    (h : IsProgramText text program) : parseProgram text = some program := by
  induction h with
  | single text v hv =>
    rw [parseProgram, splitCommas_of_no_comma hv.comma_not_mem]
    exact (readFields_cons_eq_some_iff _ _ _).2 ⟨v, [], rfl, hv, rfl⟩
  | more field rest v vs hv _ ih =>
    rw [parseProgram, splitCommas_append_comma hv.comma_not_mem]
    exact (readFields_cons_eq_some_iff _ _ _).2 ⟨v, vs, rfl, hv, ih⟩

theorem parseProgram_eq_some_iff (text : List Char) (program : List Int) :
    parseProgram text = some program ↔ IsProgramText text program :=
  ⟨isProgramText_of_parseProgram, IsProgramText.parseProgram_eq⟩

/-- The loader takes what the parser reads, if every integer is representable (70_reset R255). -/
theorem loadProgram_eq_some_iff (c : Config) (text : List Char) (program : List Int) :
    loadProgram c text = some program ↔
      parseProgram text = some program ∧ program.all (fits c) = true := by
  unfold loadProgram
  cases parseProgram text with
  | none => simp
  | some read => simp only [Option.ite_none_right_eq_some, Option.some.injEq]; grind

/-- Settles O58: the parser reads field by field what the grammar joins by commas, and the loader checks
what the parser read. -/
theorem parserMeetsGrammar : Obligations.ParserMeetsGrammar := by
  refine ⟨parseProgram_eq_some_iff, fun c text program => ?_⟩
  rw [loadProgram_eq_some_iff, parseProgram_eq_some_iff, List.all_eq_true]

end Sys2Proof.Machine
